-- ==== Sys2Proof/Word.lean ====
section
/-! DEFINITION. The widths of the block's values (00_scope.md R6, R7) and the type of one command of a run
(30_encoding.md R67). -/

namespace Sys2Proof

/-- An 8-bit value: a register byte, a byte of a memory or of a cartridge image. -/
abbrev Byte := BitVec 8

/-- A 16-bit value: the address port's storage, a raw PPU address, a physical index as MIRROR returns it. -/
abbrev Half := BitVec 16

/-- A command word, in the one format of 30_encoding.md R60. -/
abbrev CmdWord := BitVec 24

/-- One command of a run, as 30_encoding.md R67 gives the type: a word, or a LOAD with its out-of-band image. -/
inductive Cmd where
  | word (w : CmdWord)
  | load (raw : List Byte)
  deriving DecidableEq, Repr

end Sys2Proof
end

