-- ==== Sys2Proof/Syntax.lean ====
section
/-! DEFINITION. The commands of the block as syntax: one constructor per row of spec/opcode_table.json
(30_encoding.md R63, R64). -/

namespace Sys2Proof

/-- A decoded command. The types of the operands carry the ranges of 30_encoding.md R61 and R62, and ADDRINC's two
steps are two constructors (R64, R65), so every term is a command the encoding admits. -/
inductive Instr where
  /-- CTRLW imm8 (43_control_register.md R150). -/
  | ctrlw (imm8 : Byte)
  /-- ADDRW imm8 (42_address_port.md R130). -/
  | addrw (imm8 : Byte)
  /-- DATAW imm8 (45_data_port.md R187). -/
  | dataw (imm8 : Byte)
  /-- DATAR (45_data_port.md R180). -/
  | datar
  /-- LATRST (42_address_port.md R135). -/
  | latrst
  /-- ADDRR (42_address_port.md R136). -/
  | addrr
  /-- INCQ (43_control_register.md R152). -/
  | incq
  /-- ADDRINC 1 (42_address_port.md R134). -/
  | addrinc1
  /-- ADDRINC 32 (42_address_port.md R134). -/
  | addrinc32
  /-- MIRROR imm16 (44_vram_mirroring.md R164). -/
  | mirror (imm16 : Half)
  /-- LOAD with its out-of-band image (41_cartridge_loader.md R113, 30_encoding.md R67). -/
  | load (raw : List Byte)
  deriving DecidableEq, Repr

end Sys2Proof
end

