-- ==== Sys2Proof/WellFormed.lean ====
section
/-! DEFINITION. The checks on what the host and an assembler hand to the block: a command of a run (30_encoding.md R67)
and an assembler line, whose operands are numbers that may be out of range (R69, R70). Of `Instr` itself nothing is left
to check: its operand types hold exactly the values R61, R62 and R65 admit. -/

namespace Sys2Proof

/-- LOAD's word (30_encoding.md R64). -/
def loadWord : CmdWord := 0xA00000#24

/-- "the word 0xA00000 without an image is not a command a run can contain" (30_encoding.md R67). -/
def Cmd.wellFormed : Cmd → Bool
  | .word w => w != loadWord
  | .load _ => true

/-- One assembler line after its text has been split into mnemonic and number (30_encoding.md R69), the
pseudo-instructions of R70 among them. A number is not yet known to fit its shape. -/
inductive AsmLine where
  | ctrlw (n : Nat)
  | addrw (n : Nat)
  | dataw (n : Nat)
  | datar
  | latrst
  | addrr
  | incq
  | addrinc (n : Nat)
  | mirror (n : Nat)
  | load (raw : List Byte)
  | setaddr (n : Nat)
  | dummyr
  | setinc1
  | setinc32
  deriving DecidableEq, Repr

/-- "An operand out of range for its shape (imm8 > 0xFF, imm16 > 0xFFFF, ADDRINC other than 1 or 32) is an assembly
error" (30_encoding.md R69). SETADDR's `a16` is a 16-bit value by its name (R70). -/
def AsmLine.wellFormed : AsmLine → Bool
  | .ctrlw n | .addrw n | .dataw n => n ≤ 0xFF
  | .addrinc n => n == 1 || n == 32
  | .mirror n | .setaddr n => n ≤ 0xFFFF
  | .datar | .latrst | .addrr | .incq | .load _ | .dummyr | .setinc1 | .setinc32 => true

end Sys2Proof
end

