-- ==== Sys2Proof/Decode.lean ====
section
/-! DEFINITION. Decoding and encoding of command words (30_encoding.md R60-R67), the match and mask table they must agree
with (R64). The encoding is the spec's own (D1). -/

namespace Sys2Proof

/-! ## Fields of a word (R60, R61) -/

/-- `op`, bits 23:20. -/
def wordOp (w : CmdWord) : BitVec 4 := w.extractLsb' 20 4
/-- `rsv`, bits 19:16. -/
def wordRsv (w : CmdWord) : BitVec 4 := w.extractLsb' 16 4
/-- `opnd`, bits 15:0. -/
def wordOpnd (w : CmdWord) : Half := w.extractLsb' 0 16
/-- `opnd[15:8]`. -/
def opndHigh (o : Half) : Byte := o.extractLsb' 8 8
/-- `imm8 = opnd[7:0]`. -/
def opndImm8 (o : Half) : Byte := o.extractLsb' 0 8

/-- Why a word is illegal: the five cases of 30_encoding.md R65. Each of them raises REF_ILLEGAL. -/
inductive IllegalWord where
  /-- `op` in {0x0, 0xB..0xF}. -/
  | opcode
  /-- `rsv` != 0. -/
  | reservedBits
  /-- A shape-N command with `opnd` != 0. -/
  | operandNotZero
  /-- A shape-B command with `opnd[15:8]` != 0. -/
  | operandHighByte
  /-- ADDRINC with `imm8` not in {1, 32}. -/
  | incrementStep
  deriving DecidableEq, Repr

/-! ## The decoder -/

/-- Shape N: the operand must be 0x0000 (R61). -/
def decodeN (o : Half) (i : Instr) : Except IllegalWord Instr :=
  if o = 0 then .ok i else .error .operandNotZero

/-- Shape B: `opnd[15:8]` must be 0x00, and `imm8` is taken unchanged (R61, R62). -/
def decodeB (o : Half) (f : Byte → Except IllegalWord Instr) : Except IllegalWord Instr :=
  if opndHigh o = 0 then f (opndImm8 o) else .error .operandHighByte

/-- ADDRINC's `imm8` is the step and must be 1 or 32 (R62, R65). -/
def decodeStep (step : Byte) : Except IllegalWord Instr :=
  if step = 1 then .ok .addrinc1 else if step = 32 then .ok .addrinc32 else .error .incrementStep

/-- The decoder, total on words (R63-R66). `raw` is the image the host supplies with a LOAD word (R67). -/
def decode (w : CmdWord) (raw : List Byte) : Except IllegalWord Instr :=
  if wordRsv w ≠ 0 then .error .reservedBits
  else
    match (wordOp w).toNat with
    | 0x1 => decodeB (wordOpnd w) fun b => .ok (.ctrlw b)
    | 0x2 => decodeB (wordOpnd w) fun b => .ok (.addrw b)
    | 0x3 => decodeB (wordOpnd w) fun b => .ok (.dataw b)
    | 0x4 => decodeN (wordOpnd w) .datar
    | 0x5 => decodeN (wordOpnd w) .latrst
    | 0x6 => decodeN (wordOpnd w) .addrr
    | 0x7 => decodeN (wordOpnd w) .incq
    | 0x8 => decodeB (wordOpnd w) decodeStep
    | 0x9 => .ok (.mirror (wordOpnd w))
    | 0xA => decodeN (wordOpnd w) (.load raw)
    | _ => .error .opcode

/-- The word of a command of a run: a LOAD stands for the word 0xA00000 (R67). -/
def Cmd.toWord : Cmd → CmdWord
  | .word w => w
  | .load _ => loadWord

/-- The out-of-band image of a command of a run; none (the empty sequence) comes with a plain word (R67). -/
def Cmd.image : Cmd → List Byte
  | .word _ => []
  | .load raw => raw

/-- Decoding a command of a run. -/
def decodeCmd (c : Cmd) : Except IllegalWord Instr := decode c.toWord c.image

/-! ## The encoder, from the same table -/

/-- A word of format CMD from its opcode and operand, `rsv` = 0 (R60). -/
def mkWord (op : BitVec 4) (opnd : Half) : CmdWord := op ++ 0#4 ++ opnd

/-- A shape-B operand: `opnd[15:8]` = 0x00 and `imm8` below it (R61). -/
def opndB (imm8 : Byte) : Half := 0#8 ++ imm8

/-- The word of a command (R63, R64). -/
def encodeWord : Instr → CmdWord
  | .ctrlw b => mkWord 0x1 (opndB b)
  | .addrw b => mkWord 0x2 (opndB b)
  | .dataw b => mkWord 0x3 (opndB b)
  | .datar => mkWord 0x4 0
  | .latrst => mkWord 0x5 0
  | .addrr => mkWord 0x6 0
  | .incq => mkWord 0x7 0
  | .addrinc1 => mkWord 0x8 (opndB 0x01)
  | .addrinc32 => mkWord 0x8 (opndB 0x20)
  | .mirror a => mkWord 0x9 a
  | .load _ => mkWord 0xA 0

/-- The command of a run that stands for an instruction: its word, and for LOAD its image beside it (R67). -/
def encode : Instr → Cmd
  | .load raw => .load raw
  | i => .word (encodeWord i)

/-! ## The table of R64 -/

/-- A row of the match and mask table (30_encoding.md R64). -/
structure TableRow where
  mnemonic : String
  pattern : CmdWord
  mask : CmdWord
  deriving DecidableEq, Repr

/-- A word decodes to the row whose `(w & mask) == match` (R64). -/
def TableRow.admits (r : TableRow) (w : CmdWord) : Bool := w &&& r.mask == r.pattern

/-- The row of an instruction, as R64 and opcode_table.json print it. -/
def Instr.tableRow : Instr → TableRow
  | .ctrlw _ => ⟨"CTRLW", 0x100000, 0xFFFF00⟩
  | .addrw _ => ⟨"ADDRW", 0x200000, 0xFFFF00⟩
  | .dataw _ => ⟨"DATAW", 0x300000, 0xFFFF00⟩
  | .datar => ⟨"DATAR", 0x400000, 0xFFFFFF⟩
  | .latrst => ⟨"LATRST", 0x500000, 0xFFFFFF⟩
  | .addrr => ⟨"ADDRR", 0x600000, 0xFFFFFF⟩
  | .incq => ⟨"INCQ", 0x700000, 0xFFFFFF⟩
  | .addrinc1 => ⟨"ADDRINC_1", 0x800001, 0xFFFFFF⟩
  | .addrinc32 => ⟨"ADDRINC_32", 0x800020, 0xFFFFFF⟩
  | .mirror _ => ⟨"MIRROR", 0x900000, 0xFF0000⟩
  | .load _ => ⟨"LOAD", 0xA00000, 0xFFFFFF⟩

/-- The eleven rows of R64 in the table's order. -/
def opcodeTable : List TableRow :=
  [Instr.tableRow (.ctrlw 0), Instr.tableRow (.addrw 0), Instr.tableRow (.dataw 0), Instr.tableRow .datar,
   Instr.tableRow .latrst, Instr.tableRow .addrr, Instr.tableRow .incq, Instr.tableRow .addrinc1,
   Instr.tableRow .addrinc32, Instr.tableRow (.mirror 0), Instr.tableRow (.load [])]

/-! ## Words as spec/opcode_table.json numbers them -/

/-- The instruction the decoder reads from a table word. `nbits` bits of `w` count, the rest are 0. A row's LOAD word
carries no image, so it is read with the empty one (R67, log 4). -/
def decodeTableWord (nbits w : Nat) : Option Instr :=
  if w % 2 ^ nbits < 2 ^ 24 then (decode (BitVec.ofNat 24 (w % 2 ^ nbits)) []).toOption else none

/-- The command of a run that a table word stands for: LOAD's word comes with an image, here the empty one (R67, log 4). -/
def Cmd.ofTableWord (nbits w : Nat) : Cmd :=
  if BitVec.ofNat 24 (w % 2 ^ nbits) = loadWord then .load [] else .word (BitVec.ofNat 24 (w % 2 ^ nbits))

end Sys2Proof
end

