-- ==== Sys2Proof/Config.lean ====
section
/-! DEFINITION. What the source fixes for the block (00_scope.md R6, status "fixed") and the OPEN parameters, which have
no body: nothing can be proved of their values (log 5, log 6). The parameters that the spec DECIDES (MAGIC, VERSION_SHIFT,
CTRL_INC_BIT) stand in Machine/Params.lean. -/

namespace Sys2Proof

/-- NT_SIZE: two physical 1 KiB banks (R6, R30). -/
def Config.ntSize : Nat := 2048
/-- PAL_SIZE (R6, R31). -/
def Config.palSize : Nat := 32
/-- OAM_SIZE (R6, R32). -/
def Config.oamSize : Nat := 256
/-- OAM2_SIZE (R6, R32). -/
def Config.oam2Size : Nat := 32
/-- HEADER_SIZE (R6, R101). -/
def Config.headerSize : Nat := 16
/-- TRAINER_SIZE (R6, R106). -/
def Config.trainerSize : Nat := 512
/-- PRG_PAGE (R6, R105). -/
def Config.prgPage : Nat := 16384
/-- CHR_PAGE (R6, R105). -/
def Config.chrPage : Nat := 8192

/-- INIT_ADDR, OPEN: any 14-bit value (R6, R25, D4). -/
opaque Config.initAddr : BitVec 14
/-- INIT_NT, OPEN: the byte at each index (R6, R30, D5). -/
opaque Config.initNt : Nat → Byte
/-- INIT_PAL, OPEN: the byte at each index (R6, R31, D6). -/
opaque Config.initPal : Nat → Byte
/-- INIT_OAM, OPEN: the byte at each index (R6, R32, D6). -/
opaque Config.initOam : Nat → Byte
/-- INIT_OAM2, OPEN: the byte at each index (R6, R32, D6). -/
opaque Config.initOam2 : Nat → Byte

end Sys2Proof
end

