-- ==== Sys2Proof/Machine/Memory.lean ====
section
/-! DEFINITION. The byte memories NT, PAL, OAM and OAM2 (20_memory.md R40) as plain data: a list of (index, byte) cells in
one canonical form, and the two primitives of 00_scope.md R8, MemRead and MemWrite, over it. -/

namespace Sys2Proof.Machine

/-- A memory: the cells whose byte is not the unlisted one, indices strictly rising. -/
abbrev Memory := List Host.Cell

/-- What an unlisted index reads as. It only shortens the list: a store's contents at construction are the free
parameters INIT_NT, INIT_PAL, INIT_OAM, INIT_OAM2, written out cell by cell (log 7). -/
def Memory.unlisted : Byte := 0x00#8

/-- The byte at an index. -/
def Memory.byteAt : Memory → Nat → Byte
  | [], _ => Memory.unlisted
  | (a, b) :: m, i => if a = i then b else Memory.byteAt m i

/-- MemWrite (R8): the one update of a memory. No command of the block uses it (45_data_port.md R187). -/
def Memory.write : Memory → Nat → Byte → Memory
  | [], i, v => if v = Memory.unlisted then [] else [(i, v)]
  | (a, b) :: m, i, v =>
    if i < a then (if v = Memory.unlisted then (a, b) :: m else (i, v) :: (a, b) :: m)
    else if i = a then (if v = Memory.unlisted then m else (i, v) :: m)
    else (a, b) :: Memory.write m i v

/-- MemRead (R8), "defined only for i < len(M)". -/
def Memory.read (size : Nat) (m : Memory) (i : Nat) : Option Byte :=
  if i < size then some (m.byteAt i) else none

/-- The canonical form from index `lo` on, inside a store of `size` bytes. -/
def Memory.wfFrom (size : Nat) : Nat → Memory → Bool
  | _, [] => true
  | lo, (a, b) :: m => decide (lo ≤ a) && decide (a < size) && b != Memory.unlisted && Memory.wfFrom size (a + 1) m

/-- The canonical form of a store of `size` bytes: indices strictly rising and inside the store, no cell equal to what
an unlisted index reads as. -/
def Memory.wf (size : Nat) (m : Memory) : Bool := Memory.wfFrom size 0 m

/-- The `n` cells from `lo` on with the contents `f`, in canonical form. -/
def Memory.ofFnFrom (f : Nat → Byte) : Nat → Nat → Memory
  | 0, _ => []
  | n + 1, lo =>
    if f lo = Memory.unlisted then Memory.ofFnFrom f n (lo + 1) else (lo, f lo) :: Memory.ofFnFrom f n (lo + 1)

/-- A store of `size` bytes with the contents `f`. -/
def Memory.ofFn (size : Nat) (f : Nat → Byte) : Memory := Memory.ofFnFrom f size 0

end Sys2Proof.Machine
end

