-- ==== Sys2Proof/Machine/State.lean ====
section
/-! DEFINITION. The architectural state (10_state.md), the outcome types of a step, and the state a run begins in. -/

namespace Sys2Proof.Machine

/-- 10_state.md R22: exactly three values. -/
inductive Mirroring where
  | vertical
  | horizontal
  | fourScreen
  deriving DecidableEq, Repr

/-- 10_state.md R21: the parser's result, immutable. -/
structure CartridgeRecord where
  programCode : List Byte
  characterData : List Byte
  mapperId : Byte
  mirroring : Mirroring
  deriving DecidableEq, Repr

/-- The OPEN parameters of 00_scope.md R6, arguments of the model: what the address port and the four stores hold when
an engine is constructed. No command writes them (log 5, log 6). -/
structure InitParams where
  addr : BitVec 14
  nt : Memory
  pal : Memory
  oam : Memory
  oam2 : Memory
  deriving DecidableEq, Repr

/-- 10_state.md R20: the state of a constructed engine. -/
structure EngineState where
  record : CartridgeRecord
  /-- R23. -/
  ctrl : Byte
  /-- R25. -/
  addrHi : Byte
  /-- R25. -/
  addrLo : Byte
  /-- R26. -/
  awaitingHigh : Bool
  /-- R28. -/
  readBuffer : Byte
  /-- R30: 2048 bytes. -/
  nt : Memory
  /-- R31: 32 bytes. -/
  pal : Memory
  /-- R32: 256 bytes. -/
  oam : Memory
  /-- R32: 32 bytes. -/
  oam2 : Memory
  /-- R33: 0 is no fault, any other value a code of R201. -/
  fault : Byte
  deriving DecidableEq, Repr

/-- 10_state.md R20: the two shapes of the state of a run. -/
inductive RunState where
  | noEngine (fault : Byte)
  | engine (e : EngineState)
  deriving DecidableEq, Repr

/-- 30_encoding.md R68: an output is one byte (DATAR, INCQ) or one 16-bit value (ADDRR, MIRROR). -/
inductive Output where
  | byte (b : Byte)
  | half (h : Half)
  deriving DecidableEq, Repr

/-- The causes of a recorded fault (60_exceptions.md R201). They are values of the fault register, not stops of the model. -/
inductive Cause where
  | peInvalidFormat
  | peUnsupportedFormat
  | peOutOfBounds
  | cvAliasRange
  | cvPaletteRead
  | cvAddrInvariant
  | cvChrIndex
  | cvNtIndex
  | cvMirrorDomain
  | refIllegal
  | refDataWrite
  | refSequence
  deriving DecidableEq, Repr

/-- How a command ends in an engine (00_scope.md R10): with success and at most one output, or with a raised cause, the
effects of the lines before the raise standing (60_exceptions.md R204). -/
inductive CommandEnd where
  | done (e : EngineState) (out : Option Output)
  | raised (e : EngineState) (c : Cause)
  deriving DecidableEq, Repr

/-- Why the machine stops. The spec's own faults are no stops: they are recorded in the fault register and the run goes
on without effect (60_exceptions.md R203, R205). -/
inductive Fault where
  /-- Raised by `step` alone, when no command of the run is left: the owner has issued none. Safe: the model goes nowhere
  (log 2). -/
  | noCommandLeft
  deriving DecidableEq, Repr

/-- Why a command is given no meaning. -/
inductive Refusal where
  /-- Raised by an arm of `exec` whose instruction has no meaning yet. Safe. No arm raises it. -/
  | notModelled (mnemonic : String)
  /-- Raised by `step` alone, on the word 0xA00000 without an image, "not a command a run can contain" (30_encoding.md
  R67). Safe (log 3). -/
  | loadWithoutImage
  deriving DecidableEq, Repr

/-- The whole state of a run. -/
structure State where
  /-- R20. -/
  run : RunState
  /-- R34: the index of the next command. -/
  cursor : Nat
  /-- R34, R48: the commands of the run not yet taken, the next one first (log 1). -/
  pending : List Cmd
  /-- R68, D24: the outputs so far, the oldest first (log 23). -/
  outputs : List Output
  /-- The model's own field: the OPEN parameters (R6, R231; log 5, log 6). -/
  init : InitParams
  deriving DecidableEq, Repr

/-- The OPEN parameters as Config leaves them: without values. -/
def InitParams.ofConfig : InitParams where
  addr := Config.initAddr
  nt := Memory.ofFn Config.ntSize Config.initNt
  pal := Memory.ofFn Config.palSize Config.initPal
  oam := Memory.ofFn Config.oamSize Config.initOam
  oam2 := Memory.ofFn Config.oam2Size Config.initOam2

/-- A run at its beginning, `NoEngine(0)` (41_cartridge_loader.md R114), with given parameters and commands. -/
def State.ofRun (init : InitParams) (cmds : List Cmd) : State where
  run := .noEngine 0
  cursor := 0
  pending := cmds
  outputs := []
  init := init

/-- The machine before a run's first command (41_cartridge_loader.md R114, 70_reset_and_hazards.md R230): no engine, no
fault, no output, and no command placed (log 1, log 12). -/
def State.reset : State := State.ofRun InitParams.ofConfig []

end Sys2Proof.Machine
end

