-- ==== Sys2Proof/Machine/Flags.lean ====
section
/-! DEFINITION. The one-bit computations. The block has no condition codes (00_scope.md R9): there is the carry of the
low-byte addition, found by comparison, the latch flip-flop, and whether a fault is recorded. -/

namespace Sys2Proof.Machine

/-- "if the low byte overflowed (new value < old value)" (42_address_port.md R132): detected by comparison, never by a
carry flag. -/
def lowByteOverflowed (old new : Byte) : Bool := decide (new < old)

/-- "Flip `awaiting_high`" (42_address_port.md R130). -/
def EngineState.flipLatch (e : EngineState) : EngineState := { e with awaitingHigh := !e.awaitingHigh }

/-- The fault register of either shape of the state (10_state.md R33). -/
def RunState.faultCode : RunState → Byte
  | .noEngine f => f
  | .engine e => e.fault

/-- `fault != 0`: the run is stuck (60_exceptions.md R205). -/
def State.faulted (s : State) : Bool := s.run.faultCode != 0

end Sys2Proof.Machine
end

