-- ==== Sys2Proof/Machine/Params.lean ====
section
/-! DEFINITION. The parameters whose values the spec DECIDES (00_scope.md R6, status "decided"). They are named so that a
reader with the repository's code can change them; a claim that depends on one says which value it assumes
(93_implementation_defined.md, section 2). -/

namespace Sys2Proof.Machine

/-- MAGIC (R6, D17). PRESUMED, unsafe: the spec takes it from general knowledge (log 8). -/
def magic : List Byte := [0x4E, 0x45, 0x53, 0x1A]

/-- VERSION_SHIFT (R6, R104, D16). DESIGN CHOICE of the spec, unsafe (log 9). -/
def versionShift : Nat := 0

/-- CTRL_INC_BIT (R6, R24, R151, D3). PRESUMED, unsafe: the spec takes it from general knowledge (log 10). -/
def ctrlIncBit : Nat := 2

end Sys2Proof.Machine
end

