-- ==== Sys2Proof/Machine/Operands.lean ====
section
/-! DEFINITION. What a command takes as its operands beside the bits of its word: the address port's value, the increment
step of the control register, and the region of the PPU address map an address falls into. -/

namespace Sys2Proof.Machine

/-- `addr_value = addr_hi:addr_lo` (10_state.md R25, 20_memory.md R42). -/
def EngineState.addrValue (e : EngineState) : Half := e.addrHi ++ e.addrLo

/-- Re-splitting a 16-bit value into the two halves (42_address_port.md R130). -/
def EngineState.setAddr (e : EngineState) (v : Half) : EngineState :=
  { e with addrHi := v.extractLsb' 8 8, addrLo := v.extractLsb' 0 8 }

/-- `IncrementStep(ctrl)` (43_control_register.md R151). -/
def incrementStep (ctrl : Byte) : Byte := if ctrl.getLsbD ctrlIncBit then 32 else 1

/-- The regions of the PPU address map (20_memory.md R41). -/
inductive Region where
  | pattern
  | nametable
  | aliasRange
  | palette
  | beyond
  deriving DecidableEq, Repr

/-- DATAR's dispatch on the address it read (20_memory.md R41, 45_data_port.md R180). -/
def regionOf (a : Half) : Region :=
  if a ≤ 0x1FFF then .pattern
  else if a ≤ 0x2FFF then .nametable
  else if a ≤ 0x3EFF then .aliasRange
  else if a ≤ 0x3FFF then .palette
  else .beyond

end Sys2Proof.Machine
end

