-- ==== Sys2Proof/Machine/Ops.lean ====
section
/-! DEFINITION. The named operations the meanings are written over: taking a fault, the frame every command runs in, and
the address port's primitives. -/

namespace Sys2Proof.Machine

/-! ## Taking a fault -/

/-- The numeric codes of 60_exceptions.md R201 (the spec's own, D14). -/
def Cause.code : Cause → Byte
  | .peInvalidFormat => 0x01
  | .peUnsupportedFormat => 0x02
  | .peOutOfBounds => 0x03
  | .cvAliasRange => 0x10
  | .cvPaletteRead => 0x11
  | .cvAddrInvariant => 0x12
  | .cvChrIndex => 0x13
  | .cvNtIndex => 0x14
  | .cvMirrorDomain => 0x15
  | .refIllegal => 0x20
  | .refDataWrite => 0x21
  | .refSequence => 0x22

/-- `raise F` (60_exceptions.md R203), the one way a fault is taken: `fault <- code(F)`, and nothing else is saved or
changed. There is no handler to go to and no return from a fault (R206). -/
def RunState.raise (c : Cause) : RunState → RunState
  | .noEngine _ => .noEngine c.code
  | .engine e => .engine { e with fault := c.code }

/-- `raise F` in a run: no output is added (60_exceptions.md R203). -/
def State.raise (s : State) (c : Cause) : State := { s with run := s.run.raise c }

/-! ## The frame of a command -/

/-- The outputs after a command (30_encoding.md R68): at most one is added. -/
def addOutput (outs : List Output) : Option Output → List Output
  | none => outs
  | some o => outs ++ [o]

/-- The state after a command of an engine: its effects and its output, or the fault on top of the effects that stand
(60_exceptions.md R204). -/
def State.finish (s : State) : CommandEnd → State
  | .done e out => { s with run := .engine e, outputs := addOutput s.outputs out }
  | .raised e c => State.raise { s with run := .engine e } c

/-- The frame of every command but LOAD: in a faulted run it has no effect and no output (60_exceptions.md R205); met in
`NoEngine(0)` it raises REF_SEQUENCE (41_cartridge_loader.md R114); in an engine without fault it has its effect. -/
def State.inEngine (s : State) (effect : EngineState → CommandEnd) : Host.Outcome State Fault Refusal :=
  if s.faulted then .next s
  else
    match s.run with
    | .noEngine _ => .next (s.raise .refSequence)
    | .engine e => .next (s.finish (effect e))

/-- "this is the run's first command", met in `NoEngine(0)` (41_cartridge_loader.md R113, R114). -/
def State.atRunStart (s : State) : Bool := s.cursor == 0 && s.run == .noEngine 0

/-- An illegal word raises REF_ILLEGAL and changes no other state (30_encoding.md R65), unless the run is faulted: the
run's fault comes before decoding, and decoding before sequencing (60_exceptions.md R207). -/
def execIllegal (s : State) : Host.Outcome State Fault Refusal :=
  if s.faulted then .next s else .next (s.raise .refIllegal)

/-! ## Issuing commands -/

/-- The cursor advances by exactly 1 per command whatever its outcome (10_state.md R34). -/
def State.advance (s : State) : State := { s with cursor := s.cursor + 1, pending := s.pending.tail }

/-- What the command cursor does after a command that ran. -/
def afterCommand : Host.Outcome State Fault Refusal → Host.Outcome State Fault Refusal
  | .next s => .next s.advance
  | .fault f => .fault f
  | .refused r => .refused r

/-- Supplying a table word as the run's next command. -/
def State.placeCommand (s : State) (c : Cmd) : State := { s with pending := c :: s.pending.tail }

/-! ## The address port (42_address_port.md) -/

/-- "if the combined 16-bit value exceeds 0x3FFF, mask it down to 14 bits ... and re-split" (R130, R132). -/
def EngineState.maskAddr (e : EngineState) : EngineState :=
  if e.addrValue > 0x3FFF then e.setAddr (e.addrValue &&& 0x3FFF#16) else e

/-- `write(byte)` (R130): assign the half the latch selects, mask, flip the latch. -/
def EngineState.writeAddr (e : EngineState) (b : Byte) : EngineState :=
  (if e.awaitingHigh then { e with addrHi := b } else { e with addrLo := b }).maskAddr.flipLatch

/-- `AddrIncrement(step)` (R132), in the source's order: low-byte addition, carry by comparison, mask. -/
def EngineState.addrIncrement (e : EngineState) (step : Byte) : EngineState :=
  let newLo := e.addrLo + step
  let newHi := if lowByteOverflowed e.addrLo newLo then e.addrHi + 1 else e.addrHi
  EngineState.maskAddr { e with addrHi := newHi, addrLo := newLo }

end Sys2Proof.Machine
end

