-- ==== Sys2Proof/Machine/AddressPort.lean ====
section
/-! DEFINITION. The address port's commands (42_address_port.md). -/

namespace Sys2Proof.Machine

/-- ADDRW (R130). -/
def execAddrw (imm8 : Byte) (s : State) : Host.Outcome State Fault Refusal :=
  s.inEngine fun e => .done (e.writeAddr imm8) none

/-- ADDRINC 1 (R134). -/
def execAddrinc1 (s : State) : Host.Outcome State Fault Refusal :=
  s.inEngine fun e => .done (e.addrIncrement 1) none

/-- ADDRINC 32 (R134). -/
def execAddrinc32 (s : State) : Host.Outcome State Fault Refusal :=
  s.inEngine fun e => .done (e.addrIncrement 32) none

/-- LATRST (R135): `awaiting_high <- true`, unconditionally. -/
def execLatrst (s : State) : Host.Outcome State Fault Refusal :=
  s.inEngine fun e => .done { e with awaitingHigh := true } none

/-- ADDRR (R136): return the port's value, no side effects. -/
def execAddrr (s : State) : Host.Outcome State Fault Refusal :=
  s.inEngine fun e => .done e (some (.half e.addrValue))

end Sys2Proof.Machine
end

