-- ==== Sys2Proof/Machine/ControlRegister.lean ====
section
/-! DEFINITION. The control register's commands (43_control_register.md). -/

namespace Sys2Proof.Machine

/-- CTRLW (R150): `ctrl <- imm8`, all 8 bits, no masking. -/
def execCtrlw (imm8 : Byte) (s : State) : Host.Outcome State Fault Refusal :=
  s.inEngine fun e => .done { e with ctrl := imm8 } none

/-- INCQ (R152): return `IncrementStep(ctrl)` as one byte. -/
def execIncq (s : State) : Host.Outcome State Fault Refusal :=
  s.inEngine fun e => .done e (some (.byte (incrementStep e.ctrl)))

end Sys2Proof.Machine
end

