-- ==== Sys2Proof/Machine/Mirror.lean ====
section
/-! DEFINITION. The VRAM address mirroring (44_vram_mirroring.md): the fold and the MIRROR query. -/

namespace Sys2Proof.Machine

/-- Step 1 and step 2 of `MirrorIndex` (R160): the mask is 0x2FFF (C1, log 17), then 0x2000 is subtracted. -/
def vramIndex (a : Half) : Half := (a &&& 0x2FFF#16) - 0x2000#16

/-- Step 3 of `MirrorIndex` (R160). -/
def logicalTable (i : Half) : Nat := i.toNat / 0x400

/-- Step 4 of `MirrorIndex` (R160, R161): what is subtracted from the index. -/
def foldOffset : Mirroring → Nat → Half
  | .vertical, 2 => 0x800
  | .vertical, 3 => 0x800
  | .horizontal, 1 => 0x400
  | .horizontal, 2 => 0x400
  | .horizontal, 3 => 0x800
  | _, _ => 0

/-- The domain of `MirrorIndex` (R162). -/
def inMirrorDomain (a : Half) : Bool := decide (0x2000 ≤ a) && decide (a ≤ 0x3EFF)

/-- `MirrorIndex(mode, a)` (R160), for `a` in the domain of R162: its users check the domain first. -/
def mirrorIndex (mode : Mirroring) (a : Half) : Half := vramIndex a - foldOffset mode (logicalTable (vramIndex a))

/-- MIRROR (R164). -/
def execMirror (imm16 : Half) (s : State) : Host.Outcome State Fault Refusal :=
  s.inEngine fun e =>
    if inMirrorDomain imm16 then .done e (some (.half (mirrorIndex e.record.mirroring imm16)))
    else .raised e .cvMirrorDomain

end Sys2Proof.Machine
end

