-- ==== Sys2Proof/Machine/DataPort.lean ====
section
/-! DEFINITION. The data port's commands (45_data_port.md): the buffered read and the refused write. -/

namespace Sys2Proof.Machine

/-- The buffered read, common to R181 and R182: return the buffer's old byte and refresh it with the fetched one; with
no byte at the index, raise `c`. -/
def EngineState.bufferedRead (e : EngineState) (fetched : Option Byte) (c : Cause) : CommandEnd :=
  match fetched with
  | some b => .done { e with readBuffer := b } (some (.byte e.readBuffer))
  | none => .raised e c

/-- `PatternRead(a)` (R181): CHR is indexed by the address itself, with no mapper translation (20_memory.md R46). -/
def EngineState.patternRead (e : EngineState) (a : Half) : CommandEnd :=
  e.bufferedRead e.record.characterData[a.toNat]? .cvChrIndex

/-- `NametableRead(a)` (R182). -/
def EngineState.nametableRead (e : EngineState) (a : Half) : CommandEnd :=
  e.bufferedRead (Memory.read Config.ntSize e.nt (mirrorIndex e.record.mirroring a).toNat) .cvNtIndex

/-- Step 3 of DATAR (R180): the dispatch, in an engine whose address has been incremented already (R188). -/
def EngineState.dataRead (e : EngineState) (a : Half) : CommandEnd :=
  match regionOf a with
  | .pattern => e.patternRead a
  | .nametable => e.nametableRead a
  | .aliasRange => .raised e .cvAliasRange
  | .palette => .raised e .cvPaletteRead
  | .beyond => .raised e .cvAddrInvariant

/-- DATAR (R180): read the address, increment it by the control register's step, dispatch on the address read. -/
def execDatar (s : State) : Host.Outcome State Fault Refusal :=
  s.inEngine fun e => (e.addrIncrement (incrementStep e.ctrl)).dataRead e.addrValue

/-- DATAW (R187): `raise REF_DATA_WRITE`. The source gives a data-port write no semantics (D8, log 15). -/
def execDataw (_imm8 : Byte) (s : State) : Host.Outcome State Fault Refusal :=
  s.inEngine fun e => .raised e .refDataWrite

end Sys2Proof.Machine
end

