-- ==== Sys2Proof/Machine/Loader.lean ====
section
/-! DEFINITION. The cartridge loader (41_cartridge_loader.md): the pure function `parse`, the engine's construction, LOAD,
and the serializer of 95_test_vectors.md S16. -/

namespace Sys2Proof.Machine

/-- 41_cartridge_loader.md R100. -/
inductive ParseError where
  | invalidFormat
  | unsupportedFormat
  | outOfBounds
  deriving DecidableEq, Repr

/-- The recorded cause of a parse error (60_exceptions.md R201, R202). -/
def ParseError.cause : ParseError → Cause
  | .invalidFormat => .peInvalidFormat
  | .unsupportedFormat => .peUnsupportedFormat
  | .outOfBounds => .peOutOfBounds

/-- `raw[i]` of the header. `parse` looks at it only after it has checked that all 16 header bytes are there (20_memory.md
R53), so the byte past the end that `getD` names is never used. -/
def headerByte (raw : List Byte) (i : Nat) : Byte := raw.getD i 0

/-- `s[i..j]`, the bytes at indices i to j-1 (00_scope.md R7). -/
def slice (raw : List Byte) (i j : Nat) : List Byte := (raw.drop i).take (j - i)

/-- R104: the version field of byte 7. -/
def formatVersion (raw : List Byte) : Byte := (headerByte raw 7 >>> versionShift) &&& 0b11#8

/-- R105. -/
def prgLen (raw : List Byte) : Nat := (headerByte raw 4).toNat * Config.prgPage
/-- R105. -/
def chrLen (raw : List Byte) : Nat := (headerByte raw 5).toNat * Config.chrPage
/-- R106: byte 6 bit 2 tells that a trainer is present. -/
def prgStart (raw : List Byte) : Nat :=
  Config.headerSize + if (headerByte raw 6).getLsbD 2 then Config.trainerSize else 0
/-- R107. -/
def chrStart (raw : List Byte) : Nat := prgStart raw + prgLen raw
/-- R107. -/
def regionEnd (raw : List Byte) : Nat := chrStart raw + chrLen raw

/-- R108: the four-screen bit overrides the other. -/
def headerMirroring (raw : List Byte) : Mirroring :=
  if (headerByte raw 6).getLsbD 3 then .fourScreen
  else if (headerByte raw 6).getLsbD 0 then .vertical
  else .horizontal

/-- R109. -/
def headerMapperId (raw : List Byte) : Byte := (headerByte raw 7 &&& 0xF0#8) ||| (headerByte raw 6 >>> 4)

/-- `parse(raw)` (R112), the checks in the source's order. -/
def parse (raw : List Byte) : Except ParseError CartridgeRecord :=
  if raw.length < 4 ∨ raw.take 4 ≠ magic then .error .invalidFormat
  else if raw.length < Config.headerSize then .error .outOfBounds
  else if formatVersion raw ≠ 0 then .error .unsupportedFormat
  else if raw.length < regionEnd raw then .error .outOfBounds
  else .ok {
    programCode := slice raw (prgStart raw) (chrStart raw)
    characterData := slice raw (chrStart raw) (regionEnd raw)
    mapperId := headerMapperId raw
    mirroring := headerMirroring raw }

/-- The engine LOAD constructs (R113, 70_reset_and_hazards.md R230): every component at its reset value. -/
def EngineState.construct (r : CartridgeRecord) (p : InitParams) : EngineState where
  record := r
  ctrl := 0x00
  addrHi := (p.addr.setWidth 16).extractLsb' 8 8
  addrLo := (p.addr.setWidth 16).extractLsb' 0 8
  awaitingHigh := true
  readBuffer := 0x00
  nt := p.nt
  pal := p.pal
  oam := p.oam
  oam2 := p.oam2
  fault := 0

/-- LOAD (R113): no effect in a faulted run; REF_SEQUENCE unless it is the run's first command (R114); a parse error is
recorded and the run stays without an engine (R115); a record constructs the engine. -/
def execLoad (raw : List Byte) (s : State) : Host.Outcome State Fault Refusal :=
  if s.faulted then .next s
  else if !s.atRunStart then .next (s.raise .refSequence)
  else
    match parse raw with
    | .error err => .next (s.raise err.cause)
    | .ok r => .next { s with run := .engine (EngineState.construct r s.init) }

/-- The two mirroring bits of header byte 6, as 95_test_vectors.md S16 writes them. -/
def mirroringBits : Mirroring → Byte
  | .fourScreen => 0x08
  | .vertical => 0x01
  | .horizontal => 0x00

/-- The serializer of 95_test_vectors.md S16, "a serializer of this spec's own": the header of the record, then its
program code and character data. -/
def serialize (r : CartridgeRecord) : List Byte :=
  magic ++
  [BitVec.ofNat 8 (r.programCode.length / Config.prgPage), BitVec.ofNat 8 (r.characterData.length / Config.chrPage),
   ((r.mapperId &&& 0x0F#8) <<< 4) ||| mirroringBits r.mirroring, r.mapperId &&& 0xF0#8] ++
  List.replicate 8 0 ++ r.programCode ++ r.characterData

end Sys2Proof.Machine
end

