-- ==== Sys2Proof/Machine/Dispatch.lean ====
section
/-! DEFINITION. One arm per constructor of Instr. -/

namespace Sys2Proof.Machine

def exec (i : Instr) (s : State) : Host.Outcome State Fault Refusal :=
  match i with
  | .ctrlw imm8 => Sys2Proof.Machine.execCtrlw imm8 s
  | .addrw imm8 => Sys2Proof.Machine.execAddrw imm8 s
  | .dataw imm8 => Sys2Proof.Machine.execDataw imm8 s
  | .datar => Sys2Proof.Machine.execDatar s
  | .latrst => Sys2Proof.Machine.execLatrst s
  | .addrr => Sys2Proof.Machine.execAddrr s
  | .incq => Sys2Proof.Machine.execIncq s
  | .addrinc1 => Sys2Proof.Machine.execAddrinc1 s
  | .addrinc32 => Sys2Proof.Machine.execAddrinc32 s
  | .mirror imm16 => Sys2Proof.Machine.execMirror imm16 s
  | .load raw => Sys2Proof.Machine.execLoad raw s

end Sys2Proof.Machine
end

