-- ==== Sys2Proof/Machine/Step.lean ====
section
/-! DEFINITION. One step of a run: take the next command, decode it, run it, move the cursor on (10_state.md R34,
20_memory.md R48). -/

namespace Sys2Proof.Machine

/-- Running one command: decode, then execute; an illegal word takes REF_ILLEGAL (30_encoding.md R65). -/
def runCommand (c : Cmd) (s : State) : Host.Outcome State Fault Refusal :=
  match decodeCmd c with
  | .ok i => exec i s
  | .error _ => execIllegal s

/-- One step of a run. With no command left the machine stops (log 2); a word that no run can contain is refused (log 3). -/
def step (s : State) : Host.Outcome State Fault Refusal :=
  match s.pending with
  | [] => .fault .noCommandLeft
  | c :: _ => if c.wellFormed then afterCommand (runCommand c s) else .refused .loadWithoutImage

/-- `s` with a table word supplied as the run's next command (log 1, log 4). -/
def State.withFetchWord (s : State) (nbits w : Nat) : State := s.placeCommand (Cmd.ofTableWord nbits w)

end Sys2Proof.Machine
end

