-- ==== Sys2Proof/Machine/Assembler.lean ====
section
/-! DEFINITION. The assembler (30_encoding.md R69, R70): a line of text to a checked line, a line to its commands, a
program to a run. The syntax is the spec's own (D23); what it leaves open of a line's text is log 22. -/

namespace Sys2Proof.Machine

/-! ## The expansion of a line (R70) -/

/-- `SETADDR a16` (R70): `LATRST; ADDRW (a16 >> 8) & 0xFF; ADDRW a16 & 0xFF`. -/
def expandSetaddr (a16 : Half) : List Instr :=
  [.latrst, .addrw (((a16 >>> 8) &&& 0xFF#16).setWidth 8), .addrw ((a16 &&& 0xFF#16).setWidth 8)]

/-- What a line with its operand in range stands for: one command, or a pseudo-instruction's exact expansion (R70). -/
def expandLine : AsmLine → List Instr
  | .ctrlw n => [.ctrlw (BitVec.ofNat 8 n)]
  | .addrw n => [.addrw (BitVec.ofNat 8 n)]
  | .dataw n => [.dataw (BitVec.ofNat 8 n)]
  | .datar => [.datar]
  | .latrst => [.latrst]
  | .addrr => [.addrr]
  | .incq => [.incq]
  | .addrinc n => if n = 1 then [.addrinc1] else [.addrinc32]
  | .mirror n => [.mirror (BitVec.ofNat 16 n)]
  | .load raw => [.load raw]
  | .setaddr n => expandSetaddr (BitVec.ofNat 16 n)
  | .dummyr => [.datar]
  | .setinc1 => [.ctrlw 0x00]
  | .setinc32 => [.ctrlw 0x04]

/-- Assembling one line: an operand out of range is an assembly error (R69). -/
def assembleLine (l : AsmLine) : Option (List Instr) := if l.wellFormed then some (expandLine l) else none

/-- Assembling a program, a line at a time, into the commands of a run. -/
def assemble : List AsmLine → Option (List Cmd)
  | [] => some []
  | l :: ls =>
    match assembleLine l, assemble ls with
    | some is, some cs => some (is.map encode ++ cs)
    | _, _ => none

/-! ## The text of a line (R69) -/

/-- The value of a digit; hexadecimal letters of either case. -/
def digitValue (c : Char) : Option Nat :=
  if '0' ≤ c ∧ c ≤ '9' then some (c.toNat - '0'.toNat)
  else if 'a' ≤ c ∧ c ≤ 'f' then some (c.toNat - 'a'.toNat + 10)
  else if 'A' ≤ c ∧ c ≤ 'F' then some (c.toNat - 'A'.toNat + 10)
  else none

/-- Digits of a base, the most significant first. -/
def readDigits (base : Nat) : Nat → List Char → Option Nat
  | acc, [] => some acc
  | acc, c :: cs =>
    match digitValue c with
    | some d => if d < base then readDigits base (acc * base + d) cs else none
    | none => none

/-- "a number (hexadecimal with `0x`, or decimal)" (R69). -/
def readNumber : List Char → Option Nat
  | [] => none
  | '0' :: 'x' :: c :: cs => readDigits 16 0 (c :: cs)
  | cs => readDigits 10 0 cs

/-- The words of a line, separated by spaces and tabs; `acc` is the word being read, backwards. -/
def wordsFrom : List Char → List Char → List (List Char)
  | acc, [] => if acc.isEmpty then [] else [acc.reverse]
  | acc, c :: cs =>
    if c = ' ' ∨ c = '\t' then
      if acc.isEmpty then wordsFrom [] cs else acc.reverse :: wordsFrom [] cs
    else wordsFrom (c :: acc) cs

/-- A mnemonic that takes no operand (R69, R70). -/
def plainMnemonics : List (List Char × AsmLine) :=
  [("DATAR".toList, .datar), ("LATRST".toList, .latrst), ("ADDRR".toList, .addrr), ("INCQ".toList, .incq),
   ("DUMMYR".toList, .dummyr), ("SETINC1".toList, .setinc1), ("SETINC32".toList, .setinc32)]

/-- A mnemonic that takes a number (R69, R70). -/
def numberMnemonics : List (List Char × (Nat → AsmLine)) :=
  [("CTRLW".toList, .ctrlw), ("ADDRW".toList, .addrw), ("DATAW".toList, .dataw), ("ADDRINC".toList, .addrinc),
   ("MIRROR".toList, .mirror), ("SETADDR".toList, .setaddr)]

/-- One line of text (R69): the mnemonic, then its operand, then an optional comment after `;`. `images` names the
cartridge images that `LOAD <image-name>` can mean. -/
def readLine (images : List (List Char × List Byte)) (text : List Char) : Option AsmLine :=
  match wordsFrom [] (text.takeWhile (· != ';')) with
  | [m] => plainMnemonics.lookup m
  | [m, x] =>
    if m = "LOAD".toList then (images.lookup x).map .load
    else
      match numberMnemonics.lookup m, readNumber x with
      | some f, some n => some (f n)
      | _, _ => none
  | _ => none

end Sys2Proof.Machine
end

