-- ==== Sys2Proof/Safety.lean ====
section
/-! DEFINITION. What claims are stated in: the invariant every step keeps, runs of several commands, and what two states
share when no command can tell them apart. -/

namespace Sys2Proof.Machine

/-- What a fault register of an engine can hold: no fault, or a code of 60_exceptions.md R201 that a command of an
engine raises. CV_ADDR_INVARIANT (0x12) is not among them: no run reaches it (45_data_port.md R185). -/
def engineFaultCodes : List Byte := [0x00, 0x10, 0x11, 0x13, 0x14, 0x15, 0x20, 0x21, 0x22]

/-- What the fault register can hold without an engine: no fault, a parse error, or a refusal met before LOAD. -/
def noEngineFaultCodes : List Byte := [0x00, 0x01, 0x02, 0x03, 0x20, 0x22]

/-- The record's lengths (10_state.md R21): whole pages, at most 255 of them. -/
abbrev CartridgeRecord.Inv (r : CartridgeRecord) : Prop :=
  r.programCode.length % 16384 = 0 ∧ r.programCode.length ≤ 255 * 16384 ∧
  r.characterData.length % 8192 = 0 ∧ r.characterData.length ≤ 255 * 8192

/-- An engine between two commands: the address is 14 bits wide (10_state.md R27), the stores have their sizes and the
canonical form, the record its lengths, and the fault register one of its codes. -/
abbrev EngineState.Inv (e : EngineState) : Prop :=
  e.addrHi ≤ 0x3F ∧ e.record.Inv ∧ e.nt.wf Config.ntSize = true ∧ e.pal.wf Config.palSize = true ∧
  e.oam.wf Config.oamSize = true ∧ e.oam2.wf Config.oam2Size = true ∧ e.fault ∈ engineFaultCodes

/-- The parameters' stores have their sizes and the canonical form. -/
abbrev InitParams.Inv (p : InitParams) : Prop :=
  p.nt.wf Config.ntSize = true ∧ p.pal.wf Config.palSize = true ∧ p.oam.wf Config.oamSize = true ∧
  p.oam2.wf Config.oam2Size = true

/-- An output is in its range (30_encoding.md R68): a byte, a 14-bit address, or an index of at most 0xFFF, which is one. -/
abbrev Output.Inv : Output → Prop
  | .byte _ => True
  | .half h => h ≤ 0x3FFF

/-- The run's shape between two commands: without an engine and without a fault only before the first command
(41_cartridge_loader.md R114), with an engine only after it. -/
abbrev State.shapeInv (s : State) : Prop :=
  match s.run with
  | .noEngine f => f ∈ noEngineFaultCodes ∧ (f = 0 ↔ s.cursor = 0)
  | .engine e => e.Inv ∧ 0 < s.cursor

/-- The invariant of a run. -/
abbrev State.Inv (s : State) : Prop := s.shapeInv ∧ s.init.Inv ∧ ∀ o ∈ s.outputs, o.Inv

/-- No fault is recorded: the premise of a claim about a run (60_exceptions.md R205). -/
abbrev State.faultFree (s : State) : Prop := s.run.faultCode = 0

/-- `s` with given commands next and nothing after them. -/
def State.withCommands (s : State) (cmds : List Cmd) : State := { s with pending := cmds }

/-- Every step of running `cmds` from `s` answered a next state, and the last of them is `t`. -/
def RunsTo (s : State) (cmds : List Cmd) (t : State) : Prop :=
  Host.Core.run Sys2Proof.core cmds.length (s.withCommands cmds) = .next t

/-- The engine of a state, when there is one. -/
def State.engine? (s : State) : Option EngineState :=
  match s.run with
  | .noEngine _ => none
  | .engine e => some e

/-- Two engines that differ at most in what no command reads: PAL, OAM, OAM2, the program code and the mapper id
(10_state.md R31, R32, R35, R37). -/
def EngineState.sameButUnread (e f : EngineState) : Prop :=
  f = { e with pal := f.pal, oam := f.oam, oam2 := f.oam2,
               record := { e.record with programCode := f.record.programCode, mapperId := f.record.mapperId } }

/-- Two runs that no command can tell apart, but for the parameters of the stores that no command reads. -/
def State.sameButUnread (s t : State) : Prop :=
  t.cursor = s.cursor ∧ t.pending = s.pending ∧ t.outputs = s.outputs ∧
  t.init.addr = s.init.addr ∧ t.init.nt = s.init.nt ∧
  match s.run, t.run with
  | .noEngine f, .noEngine g => f = g
  | .engine e, .engine f => e.sameButUnread f
  | _, _ => False

end Sys2Proof.Machine
end

