-- ==== Sys2Proof/Certificates/Slice0/Obligations.lean ====
section
/-! DEFINITION. The statements for the provers, each named after what it says; OBLIGATIONS.json gives their basis. The
spec's engine premise "runs only in an engine with `fault = 0`" is `s.run = .engine e` with `e.fault = 0`. A conclusion
`exec i s = .next { s with ... }` is a result, a completion and a frame at once: what it does not name is unchanged. -/

open Sys2Proof Sys2Proof.Machine

namespace Sys2Proof.Claims

/-- `addr_hi:addr_lo` (10_state.md R25). -/
abbrev addrOf (e : EngineState) : Half := e.addrHi ++ e.addrLo

/-- `e` with `addr_hi <- v[15:8]; addr_lo <- v[7:0]`. -/
abbrev withAddr (e : EngineState) (v : Half) : EngineState :=
  { e with addrHi := (v >>> 8).setWidth 8, addrLo := v.setWidth 8 }

/-- The step under CTRL_INC_BIT = 2 (D3, log 10): 32 exactly when `ctrl & 0x04 != 0`. -/
abbrev stepOf (ctrl : Byte) : Half := if ctrl &&& 0x04 = 0 then 1 else 32

/-- The address after DATAR's increment: `(a + step) mod 0x4000`. -/
abbrev nextAddr (e : EngineState) : Half := (addrOf e + stepOf e.ctrl) &&& 0x3FFF

/-- The table of 44_vram_mirroring.md R161 in numbers: the physical bank of a logical table. -/
abbrev bankOf (mode : Mirroring) (table : Nat) : Nat :=
  match mode with
  | .vertical => table % 2
  | .horizontal => table / 2
  | .fourScreen => table

/-- The physical index of R161 for a nametable address or its alias: the bank of its logical table, the offset inside the
table kept. -/
abbrev physicalIndex (mode : Mirroring) (a : Half) : Nat :=
  bankOf mode (a.toNat / 0x400 % 4) * 0x400 + a.toNat % 0x400

/-- A command is an ADDRW word. -/
abbrev isAddrw (c : Cmd) : Bool :=
  match c with
  | .word w => w &&& 0xFFFF00 == 0x200000
  | .load _ => false

/-- The assembler on one line: with its operand in range it gives these commands, which decode to these instructions;
otherwise it is an error. -/
abbrev lineIs (l : AsmLine) (inRange : Prop) (cmds : List Cmd) (is : List Instr) : Prop :=
  (inRange → assemble [l] = some cmds ∧ cmds.map decodeCmd = is.map .ok) ∧ (¬ inRange → assemble [l] = none)

/-- Bytes 4 to 7 of a header, of which byte 6 tells of the trainer: the magic, four bytes, eight zero bytes. -/
abbrev headerOf (b4 b5 b6 b7 : Byte) : List Byte :=
  [0x4E, 0x45, 0x53, 0x1A, b4, b5, b6, b7, 0, 0, 0, 0, 0, 0, 0, 0]

end Sys2Proof.Claims

open Sys2Proof.Claims

/-! ## Encoding (30_encoding.md) -/

/-- The words of 95_test_vectors.md 2.6, one of each command: each decodes to the command it stands for. The encoding is
the spec's own choice (D1, log 19). -/
def Obligations.WordsOfTheSpecDecode : Prop :=
  decode 0x1000FF [] = .ok (.ctrlw 0xFF) ∧ decode 0x2000AB [] = .ok (.addrw 0xAB) ∧
  decode 0x300055 [] = .ok (.dataw 0x55) ∧ decode 0x400000 [] = .ok .datar ∧ decode 0x500000 [] = .ok .latrst ∧
  decode 0x600000 [] = .ok .addrr ∧ decode 0x700000 [] = .ok .incq ∧ decode 0x800001 [] = .ok .addrinc1 ∧
  decode 0x800020 [] = .ok .addrinc32 ∧ decode 0x90FFFF [] = .ok (.mirror 0xFFFF) ∧
  (∀ raw, decode 0xA00000 raw = .ok (.load raw))

/-- Every instruction, with every operand, is what its command decodes to. The encoding is the spec's own choice (D1,
log 19). -/
def Obligations.DecodeOfEncodeIsTheInstruction : Prop :=
  ∀ i : Instr, decodeCmd (encode i) = .ok i ∧ (encode i).wellFormed = true

/-- A word that decodes is the word its instruction encodes to: no two words decode to one instruction. The encoding is
the spec's own choice (D1, log 19). -/
def Obligations.EncodeOfDecodeIsTheWord : Prop :=
  ∀ (w : CmdWord) (raw : List Byte) (i : Instr), decode w raw = .ok i → encodeWord i = w

/-- The match and mask table with its fields: a word decodes exactly when some row admits it, the row of the instruction
it decodes to admits it, and no other row does; `imm8` is bits 7:0 and `imm16` bits 15:0, for every operand. The table
is the spec's own choice (D1, log 19). -/
def Obligations.DecodeFollowsTheMatchMaskTable : Prop :=
  ∀ (w : CmdWord) (raw : List Byte) (b : Byte) (a : Half),
    ((∃ i, decode w raw = .ok i) ↔ ∃ r ∈ opcodeTable, r.admits w = true) ∧
    (∀ i, decode w raw = .ok i → i.tableRow.admits w = true) ∧
    (∀ r₁ ∈ opcodeTable, ∀ r₂ ∈ opcodeTable, r₁.admits w = true → r₂.admits w = true → r₁ = r₂) ∧
    decode (0x100000 ||| b.setWidth 24) raw = .ok (.ctrlw b) ∧
    decode (0x200000 ||| b.setWidth 24) raw = .ok (.addrw b) ∧
    decode (0x300000 ||| b.setWidth 24) raw = .ok (.dataw b) ∧
    decode (0x900000 ||| a.setWidth 24) raw = .ok (.mirror a)

/-- The illegal words are exactly those the spec lists. The encoding is the spec's own choice (D1, D20, log 19). -/
def Obligations.IllegalWordsAreThoseListed : Prop :=
  ∀ (w : CmdWord) (raw : List Byte),
    let op := (w >>> 20).toNat
    let rsv := w &&& 0x0F0000
    let opnd := w &&& 0x00FFFF
    let imm8 := w &&& 0x0000FF
    let high := w &&& 0x00FF00
    (∃ why, decode w raw = .error why) ↔
      (op = 0x0 ∨ 0xB ≤ op) ∨ rsv ≠ 0 ∨
      ((op = 0x4 ∨ op = 0x5 ∨ op = 0x6 ∨ op = 0x7 ∨ op = 0xA) ∧ opnd ≠ 0) ∨
      ((op = 0x1 ∨ op = 0x2 ∨ op = 0x3 ∨ op = 0x8) ∧ high ≠ 0) ∨
      (op = 0x8 ∧ imm8 ≠ 1 ∧ imm8 ≠ 32)

/-! ## Steps (10_state.md R34, 60_exceptions.md R207) -/

/-- A step runs the instruction that the next command decodes to, then moves the cursor to the next command. The list of
commands and its cursor are the spec's form of a run (D21, log 1). -/
def Obligations.StepRunsTheDecodedCommand : Prop :=
  ∀ (s t : State) (c : Cmd) (rest : List Cmd) (i : Instr),
    s.pending = c :: rest → c.wellFormed = true → decodeCmd c = .ok i → exec i s = .next t →
    step s = .next { t with cursor := s.cursor + 1, pending := rest }

/-- A step on an illegal word: without a fault, REF_ILLEGAL (0x20) is recorded in either shape of the run, before any
question of sequencing; with a fault nothing happens. The cursor moves on. The fault register is the spec's own
choice (D13, D14, log 13). -/
def Obligations.IllegalWordIsRecordedByTheStep : Prop :=
  ∀ (s : State) (w : CmdWord) (rest : List Cmd) (why : IllegalWord),
    s.pending = .word w :: rest → decode w [] = .error why →
    (∀ e, s.run = .engine e → e.fault = 0 →
      step s = .next { s with run := .engine { e with fault := 0x20 }, cursor := s.cursor + 1, pending := rest }) ∧
    (s.run = .noEngine 0 →
      step s = .next { s with run := .noEngine 0x20, cursor := s.cursor + 1, pending := rest }) ∧
    (s.run.faultCode ≠ 0 → step s = .next { s with cursor := s.cursor + 1, pending := rest })

/-- No instruction touches the run's sequencing or the parameters, in any state. The list of commands and its cursor are
the spec's form of a run (D21, log 1). -/
def Obligations.ExecLeavesSequencingAlone : Prop :=
  ∀ (i : Instr) (s : State), ∃ t, exec i s = .next t ∧
    t.cursor = s.cursor ∧ t.pending = s.pending ∧ t.init = s.init ∧ ∃ outs, t.outputs = s.outputs ++ outs ∧ outs.length ≤ 1

/-- The cursor advances by exactly 1 per command whatever its outcome, and the next command is always the next in the
list; a step stops only with no command left or on a word that no run can contain (the model's own stops, log 2 and 3). -/
def Obligations.StepTakesExactlyOneCommand : Prop :=
  ∀ s : State,
    (s.pending = [] → step s = .fault .noCommandLeft) ∧
    (∀ rest, s.pending = .word 0xA00000 :: rest → step s = .refused .loadWithoutImage) ∧
    (∀ c rest, s.pending = c :: rest → c ≠ .word 0xA00000 →
      ∃ t, step s = .next t ∧ t.cursor = s.cursor + 1 ∧ t.pending = rest)

/-! ## Faults and sequencing (60_exceptions.md, 41_cartridge_loader.md R114) -/

/-- In a faulted run no instruction has an effect or an output. The stuck run is the spec's own choice (D13, log 13). -/
def Obligations.FaultedRunIgnoresEveryInstruction : Prop :=
  ∀ (i : Instr) (s : State), s.run.faultCode ≠ 0 → exec i s = .next s

/-- A faulted run stays as it is through any commands, and its fault stays the first one: only the cursor moves. The
stuck run is the spec's own choice (D13, log 13). -/
def Obligations.FaultedRunStaysStuck : Prop :=
  ∀ (cmds : List Cmd) (s : State), (∀ c ∈ cmds, c.wellFormed = true) → s.run.faultCode ≠ 0 →
    RunsTo s cmds { s with cursor := s.cursor + cmds.length, pending := [] }

/-- A command other than LOAD met in `NoEngine(0)` records REF_SEQUENCE (0x22) and does nothing else. The spec's own
choice (D19, log 21). -/
def Obligations.CommandBeforeLoadIsRefused : Prop :=
  ∀ (i : Instr) (s : State), s.run = .noEngine 0 → (∀ raw, i ≠ .load raw) →
    exec i s = .next { s with run := .noEngine 0x22 }

/-- A LOAD at any later position records REF_SEQUENCE (0x22) and does nothing else: in an engine, and in `NoEngine(0)`
when it is not the run's first command. The spec's own choice (D19, log 21). -/
def Obligations.LaterLoadIsRefused : Prop :=
  ∀ (raw : List Byte) (s : State),
    (∀ e, s.run = .engine e → e.fault = 0 → exec (.load raw) s = .next { s with run := .engine { e with fault := 0x22 } }) ∧
    (s.run = .noEngine 0 → s.cursor ≠ 0 → exec (.load raw) s = .next { s with run := .noEngine 0x22 })

/-- Faults are precise: an instruction other than DATAR that records a fault in an engine changes nothing but the fault
register and outputs nothing. The fault register is the spec's own choice (D13, log 13). -/
def Obligations.FaultChangesOnlyTheFaultRegister : Prop :=
  ∀ (i : Instr) (s t : State) (e f : EngineState), i ≠ .datar →
    s.run = .engine e → e.fault = 0 → exec i s = .next t → t.run = .engine f → f.fault ≠ 0 →
    t = { s with run := .engine { e with fault := f.fault } }

/-! ## Control register (43_control_register.md) -/

/-- CTRLW replaces all 8 bits of `ctrl` and nothing else; a following INCQ sees it. The INCQ clause rests on
CTRL_INC_BIT = 2, PRESUMED (D3, log 10). The word is the encoding, the spec's own choice (D1, log 19). -/
def Obligations.CtrlwReplacesTheWholeRegister : Prop :=
  ∀ (b : Byte) (s : State) (e : EngineState), s.run = .engine e → e.fault = 0 →
    decode (0x100000 ||| b.setWidth 24) [] = .ok (.ctrlw b) ∧
    exec (.ctrlw b) s = .next { s with run := .engine { e with ctrl := b } } ∧
    (b = 0x04 → exec .incq { s with run := .engine { e with ctrl := b } } =
      .next { s with run := .engine { e with ctrl := b }, outputs := s.outputs ++ [.byte 32] })

/-- INCQ outputs 32 exactly when `ctrl & 0x04 != 0`, else 1, and changes nothing (CTRL_INC_BIT = 2, log 10). -/
def Obligations.IncqReturnsTheStep : Prop :=
  ∀ (s : State) (e : EngineState), s.run = .engine e → e.fault = 0 →
    exec .incq s =
      .next { s with outputs := s.outputs ++ [.byte (if e.ctrl &&& 0x04 ≠ 0 then 32 else 1)] }

/-- The bits of `ctrl` other than bit 2 have no effect on any instruction: on two engines that differ only in them,
every instruction leaves two engines that differ only in them, with the same outputs. That it is bit 2 is PRESUMED
(D3, log 10). -/
def Obligations.OtherControlBitsHaveNoEffect : Prop :=
  ∀ (i : Instr) (s t : State) (e e' : EngineState) (c : Byte),
    s.run = .engine e → c &&& 0x04 = e.ctrl &&& 0x04 → exec i s = .next t → t.run = .engine e' →
    ∃ c', c' &&& 0x04 = e'.ctrl &&& 0x04 ∧
      exec i { s with run := .engine { e with ctrl := c } } = .next { t with run := .engine { e' with ctrl := c' } }

/-! ## Address port (42_address_port.md) -/

/-- ADDRW in the source's words, in every engine: assign the half the latch selects; if the combined value exceeds
0x3FFF, mask it and re-split; flip the latch. Nothing else changes. The word is the encoding, the spec's own choice
(D1, log 19). -/
def Obligations.AddrwWritesTheLatchedHalf : Prop :=
  ∀ (b : Byte) (s : State) (e : EngineState), s.run = .engine e → e.fault = 0 →
    let v : Half := if e.awaitingHigh then b ++ e.addrLo else e.addrHi ++ b
    let masked : Half := if v > 0x3FFF then v &&& 0x3FFF else v
    decode (0x200000 ||| b.setWidth 24) [] = .ok (.addrw b) ∧
    exec (.addrw b) s = .next { s with run := .engine { withAddr e masked with awaitingHigh := !e.awaitingHigh } }

/-- ADDRW's closed form where `addr_hi <= 0x3F`: the high byte is stored with its two top bits cleared, the low byte as it
is; the other half is unchanged. -/
def Obligations.AddrwClosedForm : Prop :=
  ∀ (b : Byte) (s : State) (e : EngineState), s.run = .engine e → e.fault = 0 → e.addrHi ≤ 0x3F →
    (e.awaitingHigh = true →
      exec (.addrw b) s = .next { s with run := .engine { e with addrHi := b &&& 0x3F, awaitingHigh := false } }) ∧
    (e.awaitingHigh = false →
      exec (.addrw b) s = .next { s with run := .engine { e with addrLo := b, awaitingHigh := true } })

/-- The increment primitive in the source's words and order, as ADDRINC runs it: add the step to the low byte with
wraparound; carry 1 into the high byte with wraparound if the new low byte is below the old; mask as ADDRW does.
ADDRINC as a command is the spec's own choice (R134, D1, D20, log 19). -/
def Obligations.AddrincRunsThePrimitive : Prop :=
  ∀ (s : State) (e : EngineState), s.run = .engine e → e.fault = 0 →
    let after (step : Byte) : EngineState :=
      let lo := e.addrLo + step
      let hi := if lo < e.addrLo then e.addrHi + 1 else e.addrHi
      let v : Half := hi ++ lo
      withAddr e (if v > 0x3FFF then v &&& 0x3FFF else v)
    exec .addrinc1 s = .next { s with run := .engine (after 1) } ∧
    exec .addrinc32 s = .next { s with run := .engine (after 32) }

/-- The increment's closed form: `addr_value <- (addr_value + step) mod 0x4000`. ADDRINC as a command is the spec's own
choice (R134, D1, D20, log 19). -/
def Obligations.AddrincClosedForm : Prop :=
  ∀ (s : State) (e : EngineState), s.run = .engine e → e.fault = 0 →
    exec .addrinc1 s = .next { s with run := .engine (withAddr e ((addrOf e + 1) &&& 0x3FFF)) } ∧
    exec .addrinc32 s = .next { s with run := .engine (withAddr e ((addrOf e + 32) &&& 0x3FFF)) }

/-- LATRST sets the latch unconditionally and leaves the address as it is, so the next ADDRW writes the high byte
whatever the parity was. The next ADDRW is R130's. The word is the encoding, the spec's own choice (D1, log 19). -/
def Obligations.LatrstSetsTheLatch : Prop :=
  ∀ (s : State) (e : EngineState), s.run = .engine e → e.fault = 0 →
    decode 0x500000 [] = .ok .latrst ∧
    exec .latrst s = .next { s with run := .engine { e with awaitingHigh := true } } ∧
    exec .latrst { s with run := .engine { e with awaitingHigh := true } } =
      .next { s with run := .engine { e with awaitingHigh := true } } ∧
    (∀ b, exec (.addrw b) { s with run := .engine { e with awaitingHigh := true } } =
      .next { s with run := .engine { withAddr e ((b ++ e.addrLo) &&& 0x3FFF) with awaitingHigh := false } })

/-- ADDRR outputs `addr_hi:addr_lo`, at most 0x3FFF where `addr_hi <= 0x3F`, and has no side effects. The word is the
encoding, the spec's own choice (D1, log 19). -/
def Obligations.AddrrReturnsTheValue : Prop :=
  ∀ (s : State) (e : EngineState), s.run = .engine e → e.fault = 0 →
    decode 0x600000 [] = .ok .addrr ∧
    exec .addrr s = .next { s with outputs := s.outputs ++ [.half (addrOf e)] } ∧
    (e.addrHi ≤ 0x3F → addrOf e ≤ 0x3FFF)

/-- `SETADDR a16` sets the address port to `a16 & 0x3FFF` whatever the latch parity, and leaves the latch true. The
pseudo-instruction is the spec's own (D23, log 22). The words are the encoding, the spec's own choice (D1, log 19). -/
def Obligations.SetaddrSetsTheAddress : Prop :=
  ∀ (a16 : Half) (s : State) (e : EngineState), s.run = .engine e → e.fault = 0 →
    RunsTo s ((expandSetaddr a16).map encode)
      { s with run := .engine { withAddr e (a16 &&& 0x3FFF) with awaitingHigh := true },
               cursor := s.cursor + 3, pending := [] }

/-- The latch parity law: from a set latch, after any commands without LATRST and with no fault, the latch is true
exactly when the number of ADDRWs among them is even. The words are the encoding, the spec's own choice (D1, log
19). -/
def Obligations.LatchParityLaw : Prop :=
  ∀ (cmds : List Cmd) (s t : State) (e f : EngineState),
    s.run = .engine e → e.awaitingHigh = true → (∀ c ∈ cmds, c ≠ .word 0x500000) →
    RunsTo s cmds t → t.run = .engine f → f.fault = 0 →
    (f.awaitingHigh = true ↔ (cmds.filter isAddrw).length % 2 = 0)

/-- A DATAR between the two writes of a pair: the pending low write replaces only the low byte of the incremented
address. The step rests on CTRL_INC_BIT = 2, PRESUMED (D3, log 10). -/
def Obligations.PendingLowWriteAfterRead : Prop :=
  ∀ (s t : State) (e e₁ : EngineState) (b : Byte),
    s.run = .engine e → e.fault = 0 → e.awaitingHigh = false →
    exec .datar s = .next t → t.run = .engine e₁ → e₁.fault = 0 →
    exec (.addrw b) t =
      .next { t with run := .engine { e₁ with addrHi := (nextAddr e >>> 8).setWidth 8, addrLo := b, awaitingHigh := true } }

/-! ## Mirroring (44_vram_mirroring.md) -/

/-- MIRROR on 0x2000-0x2FFF outputs the physical index of the table of R161, the offset inside the logical table kept,
and changes nothing. A command that asks for the fold is the spec's own choice (R164, D1, log 19). -/
def Obligations.MirrorFollowsTheFoldTable : Prop :=
  ∀ (a : Half) (s : State) (e : EngineState), s.run = .engine e → e.fault = 0 → 0x2000 ≤ a → a ≤ 0x2FFF →
    exec (.mirror a) s =
      .next { s with outputs := s.outputs ++ [.half (BitVec.ofNat 16 (physicalIndex e.record.mirroring a))] }

/-- The fold by its four steps, as the source counts them: mask, subtract 0x2000, logical table, subtraction by mode.
The mask 0x2FFF is the choice of C1 (log 17). A command that asks for the fold is the spec's own choice (R164, D1,
log 19). -/
def Obligations.MirrorFollowsTheFourSteps : Prop :=
  ∀ (a : Half) (s : State) (e : EngineState), s.run = .engine e → e.fault = 0 → 0x2000 ≤ a → a ≤ 0x3EFF →
    let i := (a &&& 0x2FFF).toNat - 0x2000
    let t := i / 0x400
    let r : Nat :=
      match e.record.mirroring with
      | .vertical => if t = 2 ∨ t = 3 then i - 0x800 else i
      | .horizontal => if t = 1 ∨ t = 2 then i - 0x400 else if t = 3 then i - 0x800 else i
      | .fourScreen => i
    exec (.mirror a) s = .next { s with outputs := s.outputs ++ [.half (BitVec.ofNat 16 r)] }

/-- MIRROR outside 0x2000-0x3EFF records CV_MIRROR_DOMAIN (0x15), outputs nothing and changes nothing else. The fault is
the spec's own choice (D12, log 16). A command that asks for the fold is the spec's own choice (R164, D1, log 19). -/
def Obligations.MirrorOutsideItsDomainFaults : Prop :=
  ∀ (a : Half) (s : State) (e : EngineState), s.run = .engine e → e.fault = 0 → a < 0x2000 ∨ 0x3EFF < a →
    exec (.mirror a) s = .next { s with run := .engine { e with fault := 0x15 } }

/-- The range of the fold: inside NT for Vertical and Horizontal, at most 0xFFF for FourScreen, where tables 2 and 3 lie
outside NT; the low 10 bits of the address are kept. On 0x3000-0x3EFF this rests on the mask 0x2FFF, the choice of
C1 (log 17, DEDUCED, unsafe). -/
def Obligations.MirrorIndexRange : Prop :=
  ∀ (mode : Mirroring) (a : Half), 0x2000 ≤ a → a ≤ 0x3EFF →
    (mode ≠ .fourScreen → mirrorIndex mode a ≤ 0x7FF) ∧ mirrorIndex mode a ≤ 0xFFF ∧
    (mode = .fourScreen → (0x800 ≤ mirrorIndex mode a ↔ a &&& 0x0800 ≠ 0)) ∧
    mirrorIndex mode a &&& 0x3FF = a &&& 0x3FF

/-! ## Data port (45_data_port.md) -/

/-- DATAR in pattern space: output the buffer's old byte, refresh the buffer with CHR at the address, advance the
address by the step. Nothing else changes. The step rests on CTRL_INC_BIT = 2, PRESUMED (D3, log 10). -/
def Obligations.DatarReadsPatternSpace : Prop :=
  ∀ (s : State) (e : EngineState) (b : Byte), s.run = .engine e → e.fault = 0 →
    addrOf e ≤ 0x1FFF → e.record.characterData[(addrOf e).toNat]? = some b →
    exec .datar s =
      .next { s with run := .engine { withAddr e (nextAddr e) with readBuffer := b },
                     outputs := s.outputs ++ [.byte e.readBuffer] }

/-- DATAR in nametable space: the same, with the buffer refreshed from NT at the folded index, where that is inside NT.
The step rests on CTRL_INC_BIT = 2, PRESUMED (D3, log 10). -/
def Obligations.DatarReadsNametableSpace : Prop :=
  ∀ (s : State) (e : EngineState), s.run = .engine e → e.fault = 0 →
    0x2000 ≤ addrOf e → addrOf e ≤ 0x2FFF → physicalIndex e.record.mirroring (addrOf e) < 2048 →
    exec .datar s =
      .next { s with run := .engine { withAddr e (nextAddr e) with
                                      readBuffer := e.nt.byteAt (physicalIndex e.record.mirroring (addrOf e)) },
                     outputs := s.outputs ++ [.byte e.readBuffer] }

/-- DATAR in the alias range 0x3000-0x3EFF records CV_ALIAS_RANGE (0x10): no byte is output, the buffer is unchanged,
the increment stands. That the increment stands is the spec's own choice (D22, log 14), and the step is PRESUMED
(D3, log 10). -/
def Obligations.DatarInTheAliasRangeFaults : Prop :=
  ∀ (s : State) (e : EngineState), s.run = .engine e → e.fault = 0 → 0x3000 ≤ addrOf e → addrOf e ≤ 0x3EFF →
    exec .datar s = .next { s with run := .engine { withAddr e (nextAddr e) with fault := 0x10 } }

/-- DATAR in the palette range 0x3F00-0x3FFF records CV_PALETTE_READ (0x11), the increment standing; at 0x4000 and
above, which no run reaches, CV_ADDR_INVARIANT (0x12). The palette fault and the standing increment are the spec's
own choices (D9, D22, log 14, log 16), the step is PRESUMED (log 10). -/
def Obligations.DatarAboveTheAliasRangeFaults : Prop :=
  ∀ (s : State) (e : EngineState), s.run = .engine e → e.fault = 0 →
    (0x3F00 ≤ addrOf e → addrOf e ≤ 0x3FFF →
      exec .datar s = .next { s with run := .engine { withAddr e (nextAddr e) with fault := 0x11 } }) ∧
    (0x4000 ≤ addrOf e →
      exec .datar s = .next { s with run := .engine { withAddr e (nextAddr e) with fault := 0x12 } })

/-- DATAR whose index lies outside its store: CV_CHR_INDEX (0x13) past the character data, CV_NT_INDEX (0x14) in
FourScreen at exactly 0x2800-0x2FFF; the increment stands, nothing else changes. The faults and the standing
increment are the spec's own choices (D10, D11, D22, log 14, log 16), the step is PRESUMED (log 10). -/
def Obligations.DatarOutsideTheStoreFaults : Prop :=
  ∀ (s : State) (e : EngineState), s.run = .engine e → e.fault = 0 →
    (addrOf e ≤ 0x1FFF → e.record.characterData.length ≤ (addrOf e).toNat →
      exec .datar s = .next { s with run := .engine { withAddr e (nextAddr e) with fault := 0x13 } }) ∧
    (e.record.mirroring = .fourScreen → 0x2800 ≤ addrOf e → addrOf e ≤ 0x2FFF →
      exec .datar s = .next { s with run := .engine { withAddr e (nextAddr e) with fault := 0x14 } })

/-- Whatever region is targeted, DATAR advances the address; it outputs the old buffer byte exactly when it records no
fault, keeps the buffer when it does, and changes nothing else. The standing increment is the spec's own choice
(D22, log 14), the step is PRESUMED (log 10). -/
def Obligations.DatarAlwaysAdvancesTheAddress : Prop :=
  ∀ (s : State) (e : EngineState), s.run = .engine e → e.fault = 0 →
    ∃ (buf code : Byte),
      exec .datar s =
        .next { s with run := .engine { withAddr e (nextAddr e) with readBuffer := buf, fault := code },
                       outputs := if code = 0 then s.outputs ++ [.byte e.readBuffer] else s.outputs } ∧
      (code ≠ 0 → buf = e.readBuffer)

/-- The latency law. A DATAR that completes outputs the byte that stood in the buffer after the last completed DATAR (or
after LOAD, where it is 0x00), whatever commands without DATAR stand between. The words are the encoding, the spec's
own choice (D1, log 19). -/
def Obligations.LatencyLaw : Prop :=
  ∀ (cmds : List Cmd) (s t u : State) (e f g : EngineState),
    (∀ c ∈ cmds, c ≠ .word 0x400000) → s.run = .engine e → RunsTo s cmds t → t.run = .engine f →
    exec .datar t = .next u → u.run = .engine g → g.fault = 0 →
    u.outputs = t.outputs ++ [.byte e.readBuffer] ∧
    (∀ (s₀ : State) (raw : List Byte), s₀.run = .noEngine 0 → exec (.load raw) s₀ = .next s → e.readBuffer = 0x00) ∧
    (∀ (s₀ : State) (e₀ : EngineState), s₀.run = .engine e₀ → exec .datar s₀ = .next s →
      (addrOf e₀ ≤ 0x1FFF → e₀.record.characterData[(addrOf e₀).toNat]? = some e.readBuffer) ∧
      (0x2000 ≤ addrOf e₀ → e₀.nt.byteAt (physicalIndex e₀.record.mirroring (addrOf e₀)) = e.readBuffer))

/-- DATAW records REF_DATA_WRITE (0x21) and changes nothing else: the address is not incremented and no memory written.
The refusal is the spec's own choice (D8, log 15). -/
def Obligations.DatawIsRefused : Prop :=
  ∀ (b : Byte) (s : State) (e : EngineState), s.run = .engine e → e.fault = 0 →
    exec (.dataw b) s = .next { s with run := .engine { e with fault := 0x21 } }

/-! ## Cartridge loader (41_cartridge_loader.md), under MAGIC = 4E 45 53 1A and VERSION_SHIFT = 0 (log 8, log 9) -/

/-- `parse` accepts exactly the images that pass the four checks, and gives the record the header and the regions say. -/
def Obligations.ParseAcceptsExactly : Prop :=
  ∀ (raw : List Byte) (r : CartridgeRecord),
    let b (i : Nat) : Byte := raw.getD i 0
    let prgStart := 16 + if (b 6).getLsbD 2 then 512 else 0
    let chrStart := prgStart + (b 4).toNat * 16384
    let last := chrStart + (b 5).toNat * 8192
    parse raw = .ok r ↔
      raw.take 4 = [0x4E, 0x45, 0x53, 0x1A] ∧ 16 ≤ raw.length ∧ b 7 &&& 0b11 = 0 ∧ last ≤ raw.length ∧
      r.programCode = (raw.drop prgStart).take ((b 4).toNat * 16384) ∧
      r.characterData = (raw.drop chrStart).take ((b 5).toNat * 8192) ∧
      r.mapperId = ((b 7 &&& 0xF0#8) ||| (b 6 >>> 4)) ∧
      r.mirroring = if (b 6).getLsbD 3 then .fourScreen else if (b 6).getLsbD 0 then .vertical else .horizontal

/-- When several checks fail, the first in the order signature, header length, version, regions is the one reported.
Which error a short image gives is the spec's own choice (D15, log 18). -/
def Obligations.ParseReportsTheFirstFailingCheck : Prop :=
  ∀ raw : List Byte,
    let b (i : Nat) : Byte := raw.getD i 0
    let last := 16 + (if (b 6).getLsbD 2 then 512 else 0) + (b 4).toNat * 16384 + (b 5).toNat * 8192
    let badMagic := raw.take 4 ≠ [0x4E, 0x45, 0x53, 0x1A]
    let short := raw.length < 16
    let badVersion := b 7 &&& 0b11 ≠ 0
    (parse raw = .error .invalidFormat ↔ badMagic) ∧
    (parse raw = .error .unsupportedFormat ↔ ¬ badMagic ∧ ¬ short ∧ badVersion) ∧
    (parse raw = .error .outOfBounds ↔ ¬ badMagic ∧ (short ∨ (¬ badVersion ∧ raw.length < last)))

/-- The mirroring of an accepted image: a four-screen bit set gives FourScreen, whatever bit 0; otherwise bit 0 selects
Vertical (set) or Horizontal (clear). -/
def Obligations.MirroringFromTwoHeaderBits : Prop :=
  ∀ (raw : List Byte) (r : CartridgeRecord), parse raw = .ok r →
    r.mirroring =
      (if (raw.getD 6 0).getLsbD 3 = true then .fourScreen
       else if (raw.getD 6 0).getLsbD 0 = true then .vertical else .horizontal)

/-- A trainer-present image gives the record of the image without the trainer: the 512 bytes are skipped and not kept. -/
def Obligations.TrainerIsSkipped : Prop :=
  ∀ (b4 b5 b6 b7 : Byte) (trainer payload : List Byte), b6.getLsbD 2 = false → trainer.length = 512 →
    parse (headerOf b4 b5 (b6 ||| 0x04) b7 ++ trainer ++ payload) = parse (headerOf b4 b5 b6 b7 ++ payload)

/-- What the source does not define has no effect: bytes after the character data, header bytes 8 to 15, byte 6 bit 1,
byte 7 bits 3:2. That it is ignored is the spec's own choice (D18, log 18). -/
def Obligations.UndefinedContentIsIgnored : Prop :=
  (∀ (raw extra : List Byte) (r : CartridgeRecord), parse raw = .ok r → parse (raw ++ extra) = .ok r) ∧
  (∀ (raw : List Byte) (i : Nat) (v : Byte), 8 ≤ i → i < 16 → parse (raw.set i v) = parse raw) ∧
  (∀ (raw : List Byte) (v : Byte), v &&& 0xFD = raw.getD 6 0 &&& 0xFD → parse (raw.set 6 v) = parse raw) ∧
  (∀ (raw : List Byte) (v : Byte), v &&& 0xF3 = raw.getD 7 0 &&& 0xF3 → parse (raw.set 7 v) = parse raw)

/-- A parsed record holds whole pages, at most 255 of each kind. -/
def Obligations.ParsedRegionsAreWholePages : Prop :=
  ∀ (raw : List Byte) (r : CartridgeRecord), parse raw = .ok r →
    ∃ prg chr : Nat, prg ≤ 255 ∧ chr ≤ 255 ∧
      r.programCode.length = prg * 16384 ∧ r.characterData.length = chr * 8192

/-- Parsing what the spec's serializer writes gives the record back, all four fields, for every record of whole pages,
at most 255 of each kind. That a page count of 0 is accepted is the spec's own choice (D18, log 18). -/
def Obligations.ParseOfSerializeIsTheRecord : Prop :=
  ∀ (r : CartridgeRecord) (prg chr : Nat), prg ≤ 255 → chr ≤ 255 →
    r.programCode.length = prg * 16384 → r.characterData.length = chr * 8192 → parse (serialize r) = .ok r

/-- LOAD as the run's first command with an image that parses: the engine stands with every component at its reset
value, for every value of the OPEN parameters. The set latch is derived (D7, log 11), the OPEN parameters are free
(D4 to D6, log 5, log 6). -/
def Obligations.LoadConstructsTheEngine : Prop :=
  ∀ (raw : List Byte) (s : State) (r : CartridgeRecord), s.run = .noEngine 0 → s.cursor = 0 → parse raw = .ok r →
    ∃ e : EngineState, exec (.load raw) s = .next { s with run := .engine e } ∧
      e.record = r ∧ e.ctrl = 0x00 ∧ addrOf e = s.init.addr.setWidth 16 ∧ e.awaitingHigh = true ∧ e.readBuffer = 0x00 ∧
      e.nt = s.init.nt ∧ e.pal = s.init.pal ∧ e.oam = s.init.oam ∧ e.oam2 = s.init.oam2 ∧ e.fault = 0

/-- LOAD as the run's first command with an image that does not parse: no engine, the error's code recorded. That it
leaves no engine, and the codes, are the spec's own choices (D13, D14, D19, log 13). -/
def Obligations.LoadRecordsTheParseError : Prop :=
  ∀ (raw : List Byte) (s : State), s.run = .noEngine 0 → s.cursor = 0 →
    (parse raw = .error .invalidFormat → exec (.load raw) s = .next { s with run := .noEngine 0x01 }) ∧
    (parse raw = .error .unsupportedFormat → exec (.load raw) s = .next { s with run := .noEngine 0x02 }) ∧
    (parse raw = .error .outOfBounds → exec (.load raw) s = .next { s with run := .noEngine 0x03 })

/-! ## The whole machine -/

/-- The run begins in `NoEngine(0)`, with no command taken and no output, and meets the invariant. The start of a run is
DEDUCED to be the machine's reset (log 12). -/
def Obligations.ResetMeetsTheInvariant : Prop :=
  State.reset.run = .noEngine 0 ∧ State.reset.cursor = 0 ∧ State.reset.outputs = [] ∧ State.reset.Inv

/-- Every step keeps the invariant: the address stays 14 bits wide, the stores keep their sizes and canonical form, the
fault register holds a code of the table that a run can reach, the run's shape fits its cursor, every output its range. -/
def Obligations.StepKeepsTheInvariant : Prop :=
  ∀ s t : State, s.Inv → step s = .next t → t.Inv

/-- The access matrix: after LOAD no instruction changes the record or a memory; only CTRLW changes `ctrl`, only ADDRW and
LATRST the latch, only DATAR the buffer (and only when it records no fault), only ADDRW, ADDRINC and DATAR the address,
only LOAD, MIRROR, DATAR and DATAW the fault; the others output nothing but ADDRR, INCQ, MIRROR and DATAR. -/
def Obligations.EachComponentHasItsWriters : Prop :=
  ∀ (i : Instr) (s t : State) (e : EngineState), s.run = .engine e → exec i s = .next t →
    ∃ f : EngineState, t.run = .engine f ∧
      f.record = e.record ∧ f.nt = e.nt ∧ f.pal = e.pal ∧ f.oam = e.oam ∧ f.oam2 = e.oam2 ∧
      (f.ctrl ≠ e.ctrl → ∃ b, i = .ctrlw b) ∧
      (f.awaitingHigh ≠ e.awaitingHigh → i = .latrst ∨ ∃ b, i = .addrw b) ∧
      (f.readBuffer ≠ e.readBuffer → i = .datar ∧ f.fault = 0) ∧
      (addrOf f ≠ addrOf e → i = .datar ∨ i = .addrinc1 ∨ i = .addrinc32 ∨ ∃ b, i = .addrw b) ∧
      (f.fault ≠ e.fault → i = .datar ∨ (∃ b, i = .dataw b) ∨ (∃ a, i = .mirror a) ∨ ∃ raw, i = .load raw) ∧
      (t.outputs ≠ s.outputs → i = .datar ∨ i = .addrr ∨ i = .incq ∨ ∃ a, i = .mirror a)

/-- What no command reads cannot be told from outside: two runs that differ at most in PAL, OAM, OAM2, the program code,
the mapper id and the parameters of those stores step alike and stay so, with the same outputs and faults. -/
def Obligations.UnreadStateCannotBeObserved : Prop :=
  ∀ s t s' : State, s.sameButUnread t → step s = .next s' → ∃ t', step t = .next t' ∧ s'.sameButUnread t'

/-- CTRLW and LATRST are idempotent: the second of two equal ones changes nothing. -/
def Obligations.CtrlwAndLatrstAreIdempotent : Prop :=
  ∀ (i : Instr) (s t : State), (i = .latrst ∨ ∃ b, i = .ctrlw b) → exec i s = .next t → exec i t = .next t

/-- Each line of the assembler with its range, its words and its instructions written out: an operand above 0xFF for imm8,
above 0xFFFF for imm16 or a16, or other than 1 and 32 for ADDRINC is an error; SETADDR, DUMMYR, SETINC1 and SETINC32
are their expansions; a program is its lines in order, and one bad line is an error of the whole. That SETADDR's range
is imm16's is the model's choice (log 22); the syntax and the encoding are the spec's own (D1, D23, log 19, log 22). -/
def Obligations.AssembledLinesDecodeToTheirExpansion : Prop :=
  (∀ n : Nat,
    lineIs (.ctrlw n) (n ≤ 0xFF) [.word (BitVec.ofNat 24 (0x100000 + n))] [.ctrlw (BitVec.ofNat 8 n)] ∧
    lineIs (.addrw n) (n ≤ 0xFF) [.word (BitVec.ofNat 24 (0x200000 + n))] [.addrw (BitVec.ofNat 8 n)] ∧
    lineIs (.dataw n) (n ≤ 0xFF) [.word (BitVec.ofNat 24 (0x300000 + n))] [.dataw (BitVec.ofNat 8 n)] ∧
    lineIs (.mirror n) (n ≤ 0xFFFF) [.word (BitVec.ofNat 24 (0x900000 + n))] [.mirror (BitVec.ofNat 16 n)] ∧
    lineIs (.setaddr n) (n ≤ 0xFFFF)
      [.word 0x500000, .word (BitVec.ofNat 24 (0x200000 + n / 0x100)), .word (BitVec.ofNat 24 (0x200000 + n % 0x100))]
      [.latrst, .addrw (BitVec.ofNat 8 (n / 0x100)), .addrw (BitVec.ofNat 8 (n % 0x100))] ∧
    (n ≠ 1 → n ≠ 32 → assemble [.addrinc n] = none)) ∧
  lineIs (.addrinc 1) True [.word 0x800001] [.addrinc1] ∧ lineIs (.addrinc 32) True [.word 0x800020] [.addrinc32] ∧
  lineIs .datar True [.word 0x400000] [.datar] ∧ lineIs .latrst True [.word 0x500000] [.latrst] ∧
  lineIs .addrr True [.word 0x600000] [.addrr] ∧ lineIs .incq True [.word 0x700000] [.incq] ∧
  lineIs .dummyr True [.word 0x400000] [.datar] ∧ lineIs .setinc1 True [.word 0x100000] [.ctrlw 0x00] ∧
  lineIs .setinc32 True [.word 0x100004] [.ctrlw 0x04] ∧
  (∀ raw : List Byte, lineIs (.load raw) True [.load raw] [.load raw]) ∧
  assemble [] = some [] ∧
  (∀ (l : AsmLine) (ls : List AsmLine),
    (∀ cs ds, assemble [l] = some cs → assemble ls = some ds → assemble (l :: ls) = some (cs ++ ds)) ∧
    (assemble [l] = none ∨ assemble ls = none → assemble (l :: ls) = none))

/-! ## The read buffer and the trainer, by their rules -/

/-- The read buffer by its rule: only a DATAR that completes writes it, with the byte it fetched; only DATAR reads it, and
one that completes outputs its old value; LOAD leaves it 0x00. -/
def Obligations.ReadBufferIsDatarsAlone : Prop :=
  (∀ (i : Instr) (s t : State) (e f : EngineState), s.run = .engine e → exec i s = .next t → t.run = .engine f →
    f.readBuffer ≠ e.readBuffer → i = .datar ∧ f.fault = 0) ∧
  (∀ (s t : State) (e f : EngineState), s.run = .engine e → exec .datar s = .next t → t.run = .engine f → f.fault = 0 →
    t.outputs = s.outputs ++ [.byte e.readBuffer] ∧
    (addrOf e ≤ 0x1FFF → e.record.characterData[(addrOf e).toNat]? = some f.readBuffer) ∧
    (0x2000 ≤ addrOf e → f.readBuffer = e.nt.byteAt (physicalIndex e.record.mirroring (addrOf e)))) ∧
  (∀ (i : Instr) (s t : State) (e f : EngineState) (b : Byte), i ≠ .datar →
    s.run = .engine e → exec i s = .next t → t.run = .engine f →
    exec i { s with run := .engine { e with readBuffer := b } } =
      .next { t with run := .engine { f with readBuffer := b } }) ∧
  (∀ (raw : List Byte) (s t : State) (f : EngineState), s.run = .noEngine 0 → exec (.load raw) s = .next t →
    t.run = .engine f → f.readBuffer = 0x00)

/-- The trainer by its rule: byte 6 bit 2 tells that it is present; the program data of an accepted image starts at offset
16, or 528 with a trainer, the character data right after it; and the 512 trainer bytes are not kept. -/
def Obligations.ProgramDataFollowsTheTrainer : Prop :=
  ∀ (raw : List Byte) (r : CartridgeRecord), parse raw = .ok r →
    let trainer := (raw.getD 6 0).getLsbD 2
    let prgStart := 16 + if trainer then 512 else 0
    (∃ rest, raw.drop prgStart = r.programCode ++ r.characterData ++ rest) ∧
    (trainer = true → ∀ (i : Nat) (v : Byte), 16 ≤ i → i < 528 → parse (raw.set i v) = .ok r)
end

