-- ==== Sys2Proof/Laws/Decode.lean ====
section
/-! SUPPORT. The small lemmas of the word format (30_encoding.md R60, R61): each field of a word read back. -/

namespace Sys2Proof

/-- The word as a number. -/
theorem mkWord_toNat (op : BitVec 4) (o : Half) : (mkWord op o).toNat = op.toNat * 2 ^ 20 + o.toNat := by
  have h1 : o.toNat < 2 ^ 16 := o.isLt
  have h2 : op.toNat < 2 ^ 4 := op.isLt
  simp only [mkWord, BitVec.toNat_append, BitVec.toNat_ofNat, Nat.zero_mod, Nat.or_zero]
  rw [← Nat.shiftLeft_add_eq_or_of_lt h1, Nat.shiftLeft_eq, Nat.shiftLeft_eq]
  omega

/-- A shape-B operand as a number. -/
theorem opndB_toNat (b : Byte) : (opndB b).toNat = b.toNat := by
  have h : b.toNat < 2 ^ 8 := b.isLt
  simp only [opndB, BitVec.toNat_append, BitVec.toNat_ofNat, Nat.zero_mod, Nat.zero_shiftLeft, Nat.zero_or]

@[simp] theorem wordOp_mkWord (op : BitVec 4) (o : Half) : wordOp (mkWord op o) = op := by
  have h1 : o.toNat < 2 ^ 16 := o.isLt
  have h2 : op.toNat < 2 ^ 4 := op.isLt
  apply BitVec.eq_of_toNat_eq
  simp only [wordOp, BitVec.extractLsb'_toNat, mkWord_toNat, Nat.shiftRight_eq_div_pow]
  omega

@[simp] theorem wordRsv_mkWord (op : BitVec 4) (o : Half) : wordRsv (mkWord op o) = 0 := by
  have h1 : o.toNat < 2 ^ 16 := o.isLt
  have h2 : op.toNat < 2 ^ 4 := op.isLt
  apply BitVec.eq_of_toNat_eq
  simp only [wordRsv, BitVec.extractLsb'_toNat, mkWord_toNat, Nat.shiftRight_eq_div_pow, BitVec.ofNat_eq_ofNat,
    BitVec.toNat_ofNat]
  omega

@[simp] theorem wordOpnd_mkWord (op : BitVec 4) (o : Half) : wordOpnd (mkWord op o) = o := by
  have h1 : o.toNat < 2 ^ 16 := o.isLt
  have h2 : op.toNat < 2 ^ 4 := op.isLt
  apply BitVec.eq_of_toNat_eq
  simp only [wordOpnd, BitVec.extractLsb'_toNat, mkWord_toNat, Nat.shiftRight_eq_div_pow]
  omega

@[simp] theorem opndHigh_opndB (b : Byte) : opndHigh (opndB b) = 0 := by
  revert b; decide

@[simp] theorem opndImm8_opndB (b : Byte) : opndImm8 (opndB b) = b := by
  revert b; decide

/-- A word is its fields. -/
theorem mkWord_fields (w : CmdWord) (h : wordRsv w = 0) : mkWord (wordOp w) (wordOpnd w) = w := by
  have h0 : w.toNat < 2 ^ 24 := w.isLt
  have h1 := congrArg BitVec.toNat h
  apply BitVec.eq_of_toNat_eq
  simp only [wordRsv, wordOp, wordOpnd, BitVec.extractLsb'_toNat, mkWord_toNat, Nat.shiftRight_eq_div_pow,
    BitVec.ofNat_eq_ofNat, BitVec.toNat_ofNat] at h1 ⊢
  omega

/-- A shape-B operand is its byte. -/
theorem opndB_fields (o : Half) (h : opndHigh o = 0) : opndB (opndImm8 o) = o := by
  have h0 : o.toNat < 2 ^ 16 := o.isLt
  have h1 := congrArg BitVec.toNat h
  apply BitVec.eq_of_toNat_eq
  simp only [opndHigh, opndImm8, BitVec.extractLsb'_toNat, opndB_toNat, Nat.shiftRight_eq_div_pow,
    BitVec.ofNat_eq_ofNat, BitVec.toNat_ofNat] at h1 ⊢
  omega

end Sys2Proof
end

