-- ==== Sys2Proof/Laws/Memory.lean ====
section
/-! SUPPORT. The laws of the byte memories: a read after a write, the canonical form kept by every operation, and equal
contents being equal data. -/

namespace Sys2Proof.Machine

/-- A cell list that starts at `lo` also starts at every lower index. -/
theorem Memory.wfFrom_mono {size lo lo' : Nat} (h : lo' ≤ lo) {m : Memory} (hm : m.wfFrom size lo = true) :
    m.wfFrom size lo' = true := by
  cases m with
  | nil => rfl
  | cons c m =>
    obtain ⟨a, b⟩ := c
    simp only [Memory.wfFrom, Bool.and_eq_true, decide_eq_true_eq] at hm ⊢
    exact ⟨⟨⟨h.trans hm.1.1.1, hm.1.1.2⟩, hm.1.2⟩, hm.2⟩

/-- Below its first index a memory in canonical form reads as unlisted. -/
theorem Memory.byteAt_of_lt {size lo i : Nat} (h : i < lo) {m : Memory} (hm : m.wfFrom size lo = true) :
    m.byteAt i = Memory.unlisted := by
  induction m generalizing lo with
  | nil => rfl
  | cons c m ih =>
    obtain ⟨a, b⟩ := c
    simp only [Memory.wfFrom, Bool.and_eq_true, decide_eq_true_eq] at hm
    simp only [Memory.byteAt]
    rw [if_neg (by omega)]
    exact ih (by omega) hm.2

/-- A write inside the store keeps the canonical form. -/
theorem Memory.wfFrom_write {size lo i : Nat} (v : Byte) (hlo : lo ≤ i) (hi : i < size) {m : Memory}
    (hm : m.wfFrom size lo = true) : (m.write i v).wfFrom size lo = true := by
  induction m generalizing lo with
  | nil =>
    by_cases hv : v = Memory.unlisted
    · simp [Memory.write, hv, Memory.wfFrom]
    · simp [Memory.write, hv, Memory.wfFrom, hlo, hi]
  | cons c m ih =>
    obtain ⟨a, b⟩ := c
    have hm' := hm
    simp only [Memory.wfFrom, Bool.and_eq_true, decide_eq_true_eq] at hm
    obtain ⟨⟨⟨h1, h2⟩, h3⟩, h4⟩ := hm
    rcases Nat.lt_trichotomy i a with h | h | h
    · by_cases hv : v = Memory.unlisted
      · simp [Memory.write, h, hv, hm']
      · simp [Memory.write, h, hv, Memory.wfFrom, hlo, hi, h2, h4, Nat.succ_le_of_lt h]
        simpa using h3
    · subst h
      by_cases hv : v = Memory.unlisted
      · simp [Memory.write, hv, Memory.wfFrom_mono (Nat.le_succ_of_le hlo) h4]
      · simp [Memory.write, hv, Memory.wfFrom, hlo, hi, h4]
    · have h5 : ¬ i < a := by omega
      have h6 : i ≠ a := by omega
      simp [Memory.write, h5, h6, Memory.wfFrom, h1, h2, ih h h4]
      simpa using h3

/-- A write inside the store keeps the canonical form. -/
theorem Memory.wf_write {size i : Nat} (v : Byte) (hi : i < size) {m : Memory} (hm : m.wf size = true) :
    (m.write i v).wf size = true := Memory.wfFrom_write v (Nat.zero_le i) hi hm

/-- A read after a write: the written byte at the written index, every other index as before. -/
theorem Memory.byteAt_write {size lo : Nat} (i j : Nat) (v : Byte) {m : Memory} (hm : m.wfFrom size lo = true) :
    (m.write i v).byteAt j = if j = i then v else m.byteAt j := by
  induction m generalizing lo with
  | nil =>
    by_cases hv : v = Memory.unlisted
    · simp [Memory.write, hv, Memory.byteAt]
    · simp only [Memory.write, hv, if_false, Memory.byteAt]
      by_cases h : i = j <;> simp [h, eq_comm]
  | cons c m ih =>
    obtain ⟨a, b⟩ := c
    have hm' := hm
    simp only [Memory.wfFrom, Bool.and_eq_true, decide_eq_true_eq] at hm
    obtain ⟨⟨⟨h1, h2⟩, h3⟩, h4⟩ := hm
    rcases Nat.lt_trichotomy i a with h | h | h
    · by_cases hv : v = Memory.unlisted
      · simp only [Memory.write, h, hv, if_true]
        by_cases hj : j = i
        · subst hj
          have h5 : a ≠ j := by omega
          simp [Memory.byteAt, h5, Memory.byteAt_of_lt (show j < a + 1 by omega) h4]
        · simp [hj]
      · simp only [Memory.write, h, hv, if_true, if_false]
        by_cases hj : j = i
        · simp [Memory.byteAt, hj]
        · simp [Memory.byteAt, hj, Ne.symm hj]
    · subst h
      by_cases hv : v = Memory.unlisted
      · simp only [Memory.write, Nat.lt_irrefl, hv, if_true, if_false]
        by_cases hj : j = i
        · simp [hj, Memory.byteAt_of_lt (Nat.lt_succ_self i) h4]
        · simp [Memory.byteAt, hj, Ne.symm hj]
      · simp only [Memory.write, Nat.lt_irrefl, hv, if_true, if_false]
        by_cases hj : j = i
        · simp [Memory.byteAt, hj]
        · simp [Memory.byteAt, hj, Ne.symm hj]
    · have h5 : ¬ i < a := by omega
      have h6 : i ≠ a := by omega
      simp only [Memory.write, h5, h6, if_false, Memory.byteAt, ih h4]
      by_cases hj : j = i
      · simp [hj, Ne.symm h6]
      · simp [hj]

/-- Two memories in canonical form that read alike everywhere are the same data. -/
theorem Memory.eq_of_byteAt_eq {size lo : Nat} {m n : Memory} (hm : m.wfFrom size lo = true)
    (hn : n.wfFrom size lo = true) (h : ∀ i, m.byteAt i = n.byteAt i) : m = n := by
  induction m generalizing lo n with
  | nil =>
    cases n with
    | nil => rfl
    | cons d n =>
      obtain ⟨a, b⟩ := d
      simp only [Memory.wfFrom, Bool.and_eq_true, decide_eq_true_eq, bne_iff_ne] at hn
      have := h a
      simp only [Memory.byteAt, if_true] at this
      exact absurd this.symm hn.1.2
  | cons c m ih =>
    obtain ⟨a, b⟩ := c
    have hm0 := hm
    simp only [Memory.wfFrom, Bool.and_eq_true, decide_eq_true_eq, bne_iff_ne] at hm
    cases n with
    | nil =>
      have := h a
      simp only [Memory.byteAt, if_true] at this
      exact absurd this hm.1.2
    | cons d n =>
      obtain ⟨a', b'⟩ := d
      have hn0 := hn
      simp only [Memory.wfFrom, Bool.and_eq_true, decide_eq_true_eq, bne_iff_ne] at hn
      have haa : a = a' := by
        rcases Nat.lt_trichotomy a a' with hlt | heq | hgt
        · have h1 := h a
          simp only [Memory.byteAt, if_true, if_neg (show ¬ a' = a by omega)] at h1
          rw [Memory.byteAt_of_lt (show a < a' + 1 by omega) hn.2] at h1
          exact absurd h1 hm.1.2
        · exact heq
        · have h1 := h a'
          simp only [Memory.byteAt, if_true, if_neg (show ¬ a = a' by omega)] at h1
          rw [Memory.byteAt_of_lt (show a' < a + 1 by omega) hm.2] at h1
          exact absurd h1.symm hn.1.2
      subst haa
      have hbb : b = b' := by simpa [Memory.byteAt] using h a
      subst hbb
      congr 1
      refine ih hm.2 hn.2 fun i => ?_
      by_cases hi : a = i
      · subst hi
        rw [Memory.byteAt_of_lt (Nat.lt_succ_self a) hm.2, Memory.byteAt_of_lt (Nat.lt_succ_self a) hn.2]
      · simpa [Memory.byteAt, hi] using h i

theorem Memory.ofFnFrom_wfFrom (f : Nat → Byte) (n lo : Nat) :
    (Memory.ofFnFrom f n lo).wfFrom (lo + n) lo = true := by
  induction n generalizing lo with
  | zero => rfl
  | succ n ih =>
    have h := ih (lo + 1)
    rw [show lo + 1 + n = lo + (n + 1) by omega] at h
    by_cases hf : f lo = Memory.unlisted
    · simp [Memory.ofFnFrom, hf, Memory.wfFrom_mono (Nat.le_succ lo) h]
    · simp [Memory.ofFnFrom, hf, Memory.wfFrom, h]

/-- A store written out from its contents is in canonical form. -/
theorem Memory.ofFn_wf (size : Nat) (f : Nat → Byte) : (Memory.ofFn size f).wf size = true := by
  simpa [Memory.ofFn, Memory.wf] using Memory.ofFnFrom_wfFrom f size 0

theorem Memory.byteAt_ofFnFrom (f : Nat → Byte) (n lo i : Nat) (h1 : lo ≤ i) (h2 : i < lo + n) :
    (Memory.ofFnFrom f n lo).byteAt i = f i := by
  induction n generalizing lo with
  | zero => omega
  | succ n ih =>
    rcases Nat.eq_or_lt_of_le h1 with h | h
    · subst h
      by_cases hf : f lo = Memory.unlisted
      · simp only [Memory.ofFnFrom, hf, if_true]
        exact Memory.byteAt_of_lt (Nat.lt_succ_self lo) (Memory.ofFnFrom_wfFrom f n (lo + 1))
      · simp [Memory.ofFnFrom, hf, Memory.byteAt]
    · have h3 := ih (lo + 1) h (by omega)
      by_cases hf : f lo = Memory.unlisted
      · simp [Memory.ofFnFrom, hf, h3]
      · simp [Memory.ofFnFrom, hf, Memory.byteAt, h3, show lo ≠ i by omega]

/-- A store written out from its contents reads as them. -/
theorem Memory.byteAt_ofFn (size : Nat) (f : Nat → Byte) (i : Nat) (h : i < size) :
    (Memory.ofFn size f).byteAt i = f i :=
  Memory.byteAt_ofFnFrom f size 0 i (Nat.zero_le i) (by omega)

@[simp] theorem Memory.read_of_lt {size i : Nat} (m : Memory) (h : i < size) : m.read size i = some (m.byteAt i) := by
  simp [Memory.read, h]

@[simp] theorem Memory.read_of_le {size i : Nat} (m : Memory) (h : size ≤ i) : m.read size i = none := by
  simp [Memory.read, Nat.not_lt.mpr h]

end Sys2Proof.Machine
end

