-- ==== Sys2Proof/Laws/State.lean ====
section
/-! SUPPORT. The small lemmas of the state and its updates, one per field, so that no later proof unfolds an update. -/

namespace Sys2Proof.Machine

variable (s : State) (e : EngineState) (c : Cause) (v : Half) (cmd : Cmd)

/-! ## Raising a fault -/

@[simp] theorem RunState.raise_noEngine (f : Byte) : (RunState.noEngine f).raise c = .noEngine c.code := rfl
@[simp] theorem RunState.raise_engine : (RunState.engine e).raise c = .engine { e with fault := c.code } := rfl
@[simp] theorem RunState.faultCode_noEngine (f : Byte) : (RunState.noEngine f).faultCode = f := rfl
@[simp] theorem RunState.faultCode_engine : (RunState.engine e).faultCode = e.fault := rfl
@[simp] theorem State.raise_run : (s.raise c).run = s.run.raise c := rfl
@[simp] theorem State.raise_cursor : (s.raise c).cursor = s.cursor := rfl
@[simp] theorem State.raise_pending : (s.raise c).pending = s.pending := rfl
@[simp] theorem State.raise_outputs : (s.raise c).outputs = s.outputs := rfl
@[simp] theorem State.raise_init : (s.raise c).init = s.init := rfl

/-- A raised fault is a nonzero code (60_exceptions.md R201). -/
theorem Cause.code_ne_zero (c : Cause) : c.code ≠ 0 := by cases c <;> decide

/-- Raising a fault leaves the run faulted, whatever its shape. -/
theorem State.raise_faultCode : (s.raise c).run.faultCode = c.code := by
  cases h : s.run <;> simp [h]

/-! ## Issuing commands -/

@[simp] theorem State.advance_run : s.advance.run = s.run := rfl
@[simp] theorem State.advance_cursor : s.advance.cursor = s.cursor + 1 := rfl
@[simp] theorem State.advance_pending : s.advance.pending = s.pending.tail := rfl
@[simp] theorem State.advance_outputs : s.advance.outputs = s.outputs := rfl
@[simp] theorem State.advance_init : s.advance.init = s.init := rfl
@[simp] theorem State.placeCommand_run : (s.placeCommand cmd).run = s.run := rfl
@[simp] theorem State.placeCommand_cursor : (s.placeCommand cmd).cursor = s.cursor := rfl
@[simp] theorem State.placeCommand_pending : (s.placeCommand cmd).pending = cmd :: s.pending.tail := rfl
@[simp] theorem State.placeCommand_outputs : (s.placeCommand cmd).outputs = s.outputs := rfl
@[simp] theorem State.placeCommand_init : (s.placeCommand cmd).init = s.init := rfl

/-! ## The address port's halves and the latch -/

@[simp] theorem EngineState.setAddr_addrHi : (e.setAddr v).addrHi = v.extractLsb' 8 8 := rfl
@[simp] theorem EngineState.setAddr_addrLo : (e.setAddr v).addrLo = v.extractLsb' 0 8 := rfl
@[simp] theorem EngineState.setAddr_record : (e.setAddr v).record = e.record := rfl
@[simp] theorem EngineState.setAddr_ctrl : (e.setAddr v).ctrl = e.ctrl := rfl
@[simp] theorem EngineState.setAddr_awaitingHigh : (e.setAddr v).awaitingHigh = e.awaitingHigh := rfl
@[simp] theorem EngineState.setAddr_readBuffer : (e.setAddr v).readBuffer = e.readBuffer := rfl
@[simp] theorem EngineState.setAddr_nt : (e.setAddr v).nt = e.nt := rfl
@[simp] theorem EngineState.setAddr_pal : (e.setAddr v).pal = e.pal := rfl
@[simp] theorem EngineState.setAddr_oam : (e.setAddr v).oam = e.oam := rfl
@[simp] theorem EngineState.setAddr_oam2 : (e.setAddr v).oam2 = e.oam2 := rfl
@[simp] theorem EngineState.setAddr_fault : (e.setAddr v).fault = e.fault := rfl

@[simp] theorem EngineState.flipLatch_awaitingHigh : e.flipLatch.awaitingHigh = !e.awaitingHigh := rfl
@[simp] theorem EngineState.flipLatch_addrHi : e.flipLatch.addrHi = e.addrHi := rfl
@[simp] theorem EngineState.flipLatch_addrLo : e.flipLatch.addrLo = e.addrLo := rfl
@[simp] theorem EngineState.flipLatch_record : e.flipLatch.record = e.record := rfl
@[simp] theorem EngineState.flipLatch_ctrl : e.flipLatch.ctrl = e.ctrl := rfl
@[simp] theorem EngineState.flipLatch_readBuffer : e.flipLatch.readBuffer = e.readBuffer := rfl
@[simp] theorem EngineState.flipLatch_nt : e.flipLatch.nt = e.nt := rfl
@[simp] theorem EngineState.flipLatch_pal : e.flipLatch.pal = e.pal := rfl
@[simp] theorem EngineState.flipLatch_oam : e.flipLatch.oam = e.oam := rfl
@[simp] theorem EngineState.flipLatch_oam2 : e.flipLatch.oam2 = e.oam2 := rfl
@[simp] theorem EngineState.flipLatch_fault : e.flipLatch.fault = e.fault := rfl

/-! ## The beginning of a run -/

@[simp] theorem State.reset_run : State.reset.run = .noEngine 0 := rfl
@[simp] theorem State.reset_cursor : State.reset.cursor = 0 := rfl
@[simp] theorem State.reset_pending : State.reset.pending = [] := rfl
@[simp] theorem State.reset_outputs : State.reset.outputs = [] := rfl
@[simp] theorem State.reset_init : State.reset.init = InitParams.ofConfig := rfl

end Sys2Proof.Machine
end

