-- ==== Sys2Proof/Laws/Ops.lean ====
section
/-! SUPPORT. One lemma per shared operation that says what it can do; later proofs cite it and do not unfold the operation. -/

namespace Sys2Proof.Machine

/-! ## The frame of a command -/

theorem State.faulted_of_ne {s : State} (h : s.run.faultCode ≠ 0) : s.faulted = true := bne_iff_ne.mpr h

theorem State.faulted_of_eq {s : State} (h : s.run.faultCode = 0) : s.faulted = false := by
  rw [State.faulted, h]; rfl

/-- In a faulted run a command has no effect (60_exceptions.md R205). -/
theorem State.inEngine_faulted {s : State} (h : s.run.faultCode ≠ 0) (effect : EngineState → CommandEnd) :
    s.inEngine effect = .next s := by rw [State.inEngine, if_pos (State.faulted_of_ne h)]

/-- A command met in `NoEngine(0)` raises REF_SEQUENCE (41_cartridge_loader.md R114). -/
theorem State.inEngine_noEngine {s : State} (h : s.run = .noEngine 0) (effect : EngineState → CommandEnd) :
    s.inEngine effect = .next (s.raise .refSequence) := by simp [State.inEngine, State.faulted, h]

/-- In an engine without fault a command has its effect. -/
theorem State.inEngine_engine {s : State} {e : EngineState} (h : s.run = .engine e) (hf : e.fault = 0)
    (effect : EngineState → CommandEnd) : s.inEngine effect = .next (s.finish (effect e)) := by
  simp [State.inEngine, State.faulted, h, hf]

/-- Everything the frame of a command can answer. -/
theorem State.inEngine_cases {s : State} {effect : EngineState → CommandEnd} {t : State}
    (h : s.inEngine effect = .next t) :
    (s.run.faultCode ≠ 0 ∧ t = s) ∨ (s.run = .noEngine 0 ∧ t = s.raise .refSequence) ∨
      ∃ e, s.run = .engine e ∧ e.fault = 0 ∧ t = s.finish (effect e) := by
  by_cases hf : s.run.faultCode = 0
  · cases hr : s.run with
    | noEngine f =>
      rw [hr] at hf
      simp only [RunState.faultCode_noEngine] at hf
      subst hf
      rw [State.inEngine_noEngine hr] at h
      exact .inr (.inl ⟨rfl, by simpa using h.symm⟩)
    | engine e =>
      rw [hr] at hf
      rw [State.inEngine_engine hr hf] at h
      exact .inr (.inr ⟨e, rfl, hf, by simpa using h.symm⟩)
  · rw [State.inEngine_faulted hf] at h
    exact .inl ⟨hf, by simpa using h.symm⟩

@[simp] theorem State.finish_done (s : State) (e : EngineState) (out : Option Output) :
    s.finish (.done e out) = { s with run := .engine e, outputs := addOutput s.outputs out } := rfl

@[simp] theorem State.finish_raised (s : State) (e : EngineState) (c : Cause) :
    s.finish (.raised e c) = { s with run := .engine { e with fault := c.code } } := rfl

@[simp] theorem addOutput_none (outs : List Output) : addOutput outs none = outs := rfl
@[simp] theorem addOutput_some (outs : List Output) (o : Output) : addOutput outs (some o) = outs ++ [o] := rfl

@[simp] theorem State.finish_cursor (s : State) (r : CommandEnd) : (s.finish r).cursor = s.cursor := by cases r <;> rfl
@[simp] theorem State.finish_pending (s : State) (r : CommandEnd) : (s.finish r).pending = s.pending := by cases r <;> rfl
@[simp] theorem State.finish_init (s : State) (r : CommandEnd) : (s.finish r).init = s.init := by cases r <;> rfl

/-- Everything an illegal word can do (30_encoding.md R65, 60_exceptions.md R207). -/
theorem execIllegal_cases {s t : State} (h : execIllegal s = .next t) :
    (s.run.faultCode ≠ 0 ∧ t = s) ∨ (s.run.faultCode = 0 ∧ t = s.raise .refIllegal) := by
  by_cases hf : s.run.faultCode = 0
  · exact .inr ⟨hf, by simpa [execIllegal, State.faulted_of_eq hf] using h.symm⟩
  · exact .inl ⟨hf, by simpa [execIllegal, State.faulted_of_ne hf] using h.symm⟩

/-! ## The address port -/

/-- Masking leaves everything but the two halves alone. -/
theorem EngineState.maskAddr_frame (e : EngineState) :
    e.maskAddr = { e with addrHi := e.maskAddr.addrHi, addrLo := e.maskAddr.addrLo } := by
  unfold EngineState.maskAddr
  split <;> rfl

/-- The increment leaves everything but the two halves alone (42_address_port.md R132). -/
theorem EngineState.addrIncrement_frame (e : EngineState) (step : Byte) :
    e.addrIncrement step =
      { e with addrHi := (e.addrIncrement step).addrHi, addrLo := (e.addrIncrement step).addrLo } := by
  unfold EngineState.addrIncrement
  rw [EngineState.maskAddr_frame]

/-- A write of the port leaves everything but the two halves and the latch alone (42_address_port.md R130). -/
theorem EngineState.writeAddr_frame (e : EngineState) (b : Byte) :
    e.writeAddr b =
      { e with addrHi := (e.writeAddr b).addrHi, addrLo := (e.writeAddr b).addrLo, awaitingHigh := !e.awaitingHigh } := by
  unfold EngineState.writeAddr
  rw [EngineState.maskAddr_frame]
  split <;> rfl

/-! ## The buffered read -/

/-- Everything the dispatch of DATAR can do to an engine: it fetches a byte and gives back the old one, or it raises a
fault and changes nothing (45_data_port.md R180-R185). -/
theorem EngineState.dataRead_cases (e : EngineState) (a : Half) :
    (∃ b, e.dataRead a = .done { e with readBuffer := b } (some (.byte e.readBuffer))) ∨
      ∃ c, e.dataRead a = .raised e c ∧ c ∈ [Cause.cvAliasRange, .cvPaletteRead, .cvAddrInvariant, .cvChrIndex, .cvNtIndex] := by
  unfold EngineState.dataRead EngineState.patternRead EngineState.nametableRead EngineState.bufferedRead
  cases regionOf a with
  | pattern =>
    dsimp only
    split
    · exact .inl ⟨_, rfl⟩
    · exact .inr ⟨_, rfl, by decide⟩
  | nametable =>
    dsimp only
    split
    · exact .inl ⟨_, rfl⟩
    · exact .inr ⟨_, rfl, by decide⟩
  | aliasRange => exact .inr ⟨_, rfl, by decide⟩
  | palette => exact .inr ⟨_, rfl, by decide⟩
  | beyond => exact .inr ⟨_, rfl, by decide⟩

/-! ## LOAD -/

theorem State.atRunStart_iff (s : State) : s.atRunStart = true ↔ s.cursor = 0 ∧ s.run = .noEngine 0 := by
  simp [State.atRunStart]

/-- Everything LOAD can do (41_cartridge_loader.md R113-R115). -/
theorem execLoad_cases {raw : List Byte} {s t : State} (h : execLoad raw s = .next t) :
    (s.run.faultCode ≠ 0 ∧ t = s) ∨
    (s.run.faultCode = 0 ∧ ¬ (s.cursor = 0 ∧ s.run = .noEngine 0) ∧ t = s.raise .refSequence) ∨
    (s.cursor = 0 ∧ s.run = .noEngine 0 ∧
      ((∃ err, parse raw = .error err ∧ t = s.raise err.cause) ∨
       ∃ r, parse raw = .ok r ∧ t = { s with run := .engine (EngineState.construct r s.init) })) := by
  unfold execLoad at h
  by_cases hf : s.run.faultCode = 0
  · rw [if_neg (by simp [State.faulted_of_eq hf])] at h
    by_cases hs : s.atRunStart = true
    · rw [if_neg (by simp [hs])] at h
      have hs' := (State.atRunStart_iff s).mp hs
      refine .inr (.inr ⟨hs'.1, hs'.2, ?_⟩)
      cases hp : parse raw with
      | error err => exact .inl ⟨err, rfl, by simpa [hp] using h.symm⟩
      | ok r => exact .inr ⟨r, rfl, by simpa [hp] using h.symm⟩
    · rw [if_pos (by simpa using hs)] at h
      refine .inr (.inl ⟨hf, fun hc => hs ((State.atRunStart_iff s).mpr hc), by simpa using h.symm⟩)
  · rw [if_pos (State.faulted_of_ne hf)] at h
    exact .inl ⟨hf, by simpa using h.symm⟩

/-! ## One step -/

/-- Everything a step that answers a next state has done. -/
theorem step_cases {s t : State} (h : step s = .next t) :
    ∃ c rest u, s.pending = c :: rest ∧ c.wellFormed = true ∧ runCommand c s = .next u ∧ t = u.advance := by
  unfold step at h
  split at h
  · cases h
  · rename_i c rest hp
    split at h
    · rename_i hw
      cases hr : runCommand c s with
      | next u => exact ⟨c, rest, u, hp, hw, hr, by simpa [hr, afterCommand] using h.symm⟩
      | fault f => simp [hr, afterCommand] at h
      | refused r => simp [hr, afterCommand] at h
    · cases h

/-- Running a command is running the instruction it decodes to, or taking REF_ILLEGAL. -/
theorem runCommand_cases {c : Cmd} {s t : State} (h : runCommand c s = .next t) :
    (∃ i, decodeCmd c = .ok i ∧ exec i s = .next t) ∨ (∃ why, decodeCmd c = .error why ∧ execIllegal s = .next t) := by
  unfold runCommand at h
  cases hd : decodeCmd c with
  | ok i => exact .inl ⟨i, rfl, by simpa [hd] using h⟩
  | error why => exact .inr ⟨why, rfl, by simpa [hd] using h⟩

end Sys2Proof.Machine
end

