-- ==== Sys2Proof/Laws/Exec.lean ====
section
/-! SUPPORT. One inversion for all instructions: everything `exec` can answer, so that no later proof unfolds a meaning and
the frame of a command again. -/

namespace Sys2Proof.Machine

/-- The effect of an instruction on an engine without fault; LOAD's is not one on an engine, and in an engine it is
refused (41_cartridge_loader.md R114). -/
def effectOf : Instr → EngineState → CommandEnd
  | .ctrlw b, e => .done { e with ctrl := b } none
  | .addrw b, e => .done (e.writeAddr b) none
  | .dataw _, e => .raised e .refDataWrite
  | .datar, e => (e.addrIncrement (incrementStep e.ctrl)).dataRead e.addrValue
  | .latrst, e => .done { e with awaitingHigh := true } none
  | .addrr, e => .done e (some (.half e.addrValue))
  | .incq, e => .done e (some (.byte (incrementStep e.ctrl)))
  | .addrinc1, e => .done (e.addrIncrement 1) none
  | .addrinc32, e => .done (e.addrIncrement 32) none
  | .mirror a, e =>
    if inMirrorDomain a then .done e (some (.half (mirrorIndex e.record.mirroring a))) else .raised e .cvMirrorDomain
  | .load _, e => .raised e .refSequence

/-- Every instruction but LOAD runs its effect in the frame of a command. -/
theorem exec_eq_inEngine {i : Instr} (hl : ∀ raw, i ≠ .load raw) (s : State) : exec i s = s.inEngine (effectOf i) := by
  cases i with
  | load raw => exact absurd rfl (hl raw)
  | _ => rfl

/-- In an engine without fault an instruction has its effect, LOAD too. -/
theorem exec_engine {s : State} {e : EngineState} (h : s.run = .engine e) (hf : e.fault = 0) (i : Instr) :
    exec i s = .next (s.finish (effectOf i e)) := by
  cases i with
  | load raw =>
    have h1 : s.faulted = false := State.faulted_of_eq (by rw [h]; exact hf)
    have h2 : s.atRunStart = false := by
      rw [Bool.eq_false_iff, ne_eq, State.atRunStart_iff, h]
      simp
    simp [exec, execLoad, h1, h2, effectOf, State.raise, h]
  | _ => exact (exec_eq_inEngine (by simp) s).trans (State.inEngine_engine h hf _)

/-- Everything an instruction can answer: nothing in a faulted run; REF_SEQUENCE before LOAD and on a LOAD that is not
first; its effect in an engine; LOAD's parse result at the start of a run. -/
theorem exec_cases {i : Instr} {s t : State} (h : exec i s = .next t) :
    (s.run.faultCode ≠ 0 ∧ t = s) ∨
    (s.run = .noEngine 0 ∧ ((∀ raw, i ≠ .load raw) ∨ s.cursor ≠ 0) ∧ t = s.raise .refSequence) ∨
    (∃ e, s.run = .engine e ∧ e.fault = 0 ∧ t = s.finish (effectOf i e)) ∨
    (∃ raw, i = .load raw ∧ s.run = .noEngine 0 ∧ s.cursor = 0 ∧
      ((∃ err, parse raw = .error err ∧ t = s.raise err.cause) ∨
       ∃ r, parse raw = .ok r ∧ t = { s with run := .engine (EngineState.construct r s.init) })) := by
  by_cases hl : ∀ raw, i ≠ .load raw
  · rw [exec_eq_inEngine hl] at h
    rcases State.inEngine_cases h with h1 | ⟨h1, h2⟩ | h1
    · exact .inl h1
    · exact .inr (.inl ⟨h1, .inl hl, h2⟩)
    · exact .inr (.inr (.inl h1))
  · simp only [not_forall, ne_eq, not_not] at hl
    obtain ⟨raw, rfl⟩ := hl
    rcases execLoad_cases h with h1 | ⟨hf, hs, h2⟩ | ⟨hc, hr, h1⟩
    · exact .inl h1
    · cases hr : s.run with
      | noEngine f =>
        have hf0 : f = 0 := by rw [hr] at hf; exact hf
        subst hf0
        exact .inr (.inl ⟨rfl, .inr fun hc => hs ⟨hc, hr⟩, h2⟩)
      | engine e =>
        have hf0 : e.fault = 0 := by rw [hr] at hf; exact hf
        exact .inr (.inr (.inl ⟨e, rfl, hf0, by rw [h2]; simp [State.raise, hr, effectOf]⟩))
    · exact .inr (.inr (.inr ⟨raw, rfl, hr, hc, h1⟩))

/-- The outputs only grow, by at most one value a command (30_encoding.md R68). -/
theorem State.finish_outputs (s : State) (r : CommandEnd) :
    ∃ outs, (s.finish r).outputs = s.outputs ++ outs ∧ outs.length ≤ 1 := by
  cases r with
  | done e out =>
    cases out with
    | none => exact ⟨[], by simp⟩
    | some o => exact ⟨[o], by simp⟩
  | raised e c => exact ⟨[], by simp⟩

end Sys2Proof.Machine
end

