-- ==== Sys2Proof/Laws/PerInstr.lean ====
section
/-! SUPPORT. Facts about every instruction as syntax, one lemma per constructor. Family `MatchMask`: an instruction's
word matches its own row of the match and mask table (30_encoding.md R64). -/

namespace Sys2Proof.Laws

/-- Masking with 0xFF0000 clears the operand. -/
theorem mask_high_byte (w : CmdWord) : w &&& 0xFF0000#24 = (w >>> 16) <<< 16 := by
  apply BitVec.eq_of_getElem_eq
  intro i hi
  interval_cases i <;> simp [BitVec.getElem_shiftLeft, BitVec.getElem_ushiftRight]

/-- The word of `i` under the mask of its row is the row's match. -/
def MatchMask.Statement (i : Instr) : Prop := (Instr.tableRow i).admits (encodeWord i) = true

theorem MatchMask.ctrlw (imm8 : Byte) : MatchMask.Statement (.ctrlw imm8) := by
  revert imm8; unfold MatchMask.Statement; decide
theorem MatchMask.addrw (imm8 : Byte) : MatchMask.Statement (.addrw imm8) := by
  revert imm8; unfold MatchMask.Statement; decide
theorem MatchMask.dataw (imm8 : Byte) : MatchMask.Statement (.dataw imm8) := by
  revert imm8; unfold MatchMask.Statement; decide
theorem MatchMask.datar : MatchMask.Statement .datar := by unfold MatchMask.Statement; decide
theorem MatchMask.latrst : MatchMask.Statement .latrst := by unfold MatchMask.Statement; decide
theorem MatchMask.addrr : MatchMask.Statement .addrr := by unfold MatchMask.Statement; decide
theorem MatchMask.incq : MatchMask.Statement .incq := by unfold MatchMask.Statement; decide
theorem MatchMask.addrinc1 : MatchMask.Statement .addrinc1 := by unfold MatchMask.Statement; decide
theorem MatchMask.addrinc32 : MatchMask.Statement .addrinc32 := by unfold MatchMask.Statement; decide
theorem MatchMask.mirror (imm16 : Half) : MatchMask.Statement (.mirror imm16) := by
  have h : imm16.toNat < 2 ^ 16 := imm16.isLt
  simp only [MatchMask.Statement, TableRow.admits, encodeWord, Instr.tableRow, beq_iff_eq]
  rw [show (0xFF0000 : CmdWord) = 0xFF0000#24 from rfl, mask_high_byte]
  apply BitVec.eq_of_toNat_eq
  simp [mkWord_toNat, Nat.shiftRight_eq_div_pow, Nat.shiftLeft_eq]
  omega
theorem MatchMask.load (raw : List Byte) : MatchMask.Statement (.load raw) := by
  simp only [MatchMask.Statement, TableRow.admits, encodeWord, mkWord, Instr.tableRow]; decide

end Sys2Proof.Laws
end

