-- ==== Sys2Proof/Laws/Run.lean ====
section
/-! SUPPORT. Runs of several commands: one command and the rest, and the induction over a run packaged once. -/

namespace Sys2Proof.Machine

theorem exec_pending {i : Instr} {s t : State} (h : exec i s = .next t) : t.pending = s.pending := by
  rcases exec_cases h with ⟨_, rfl⟩ | ⟨_, _, rfl⟩ | ⟨e, _, _, rfl⟩ | ⟨_, _, _, _, ⟨_, _, rfl⟩ | ⟨_, _, rfl⟩⟩ <;> simp

theorem step_pending {s t : State} (h : step s = .next t) : t.pending = s.pending.tail := by
  obtain ⟨c, rest, u, _, _, hr, rfl⟩ := step_cases h
  rcases runCommand_cases hr with ⟨i, _, he⟩ | ⟨_, _, he⟩
  · simp [exec_pending he]
  · rcases execIllegal_cases he with ⟨_, rfl⟩ | ⟨_, rfl⟩ <;> simp

theorem RunsTo_nil {s t : State} : RunsTo s [] t ↔ t = { s with pending := [] } := by
  constructor
  · intro h
    have h' : Host.Outcome.next (s.withCommands []) = (.next t : Host.Outcome State Fault Refusal) := h
    cases h'
    rfl
  · rintro rfl
    rfl

theorem core_run_next {s t : State} (n : Nat) (h : step s = .next t) :
    Host.Core.run Sys2Proof.core (n + 1) s = Host.Core.run Sys2Proof.core n t := by
  have h' : Sys2Proof.core.step s = .next t := h
  simp only [Host.Core.run, h']

theorem core_run_stops {s u : State} (n : Nat) (h : ∀ t, step s ≠ .next t) :
    Host.Core.run Sys2Proof.core (n + 1) s ≠ .next u := by
  intro hr
  cases hs : step s with
  | next t => exact h t hs
  | fault r =>
    have h' : Sys2Proof.core.step s = .fault r := hs
    simp only [Host.Core.run, h'] at hr
    cases hr
  | refused r =>
    have h' : Sys2Proof.core.step s = .refused r := hs
    simp only [Host.Core.run, h'] at hr
    cases hr

/-- A run of a command and more: its step, then the run of the rest. -/
theorem RunsTo_cons {s u : State} {c : Cmd} {cs : List Cmd} :
    RunsTo s (c :: cs) u ↔ ∃ t, step (s.withCommands (c :: cs)) = .next t ∧ RunsTo t cs u := by
  have hw : ∀ t, step (s.withCommands (c :: cs)) = .next t → t.withCommands cs = t := by
    intro t ht
    have hp : t.pending = cs := step_pending ht
    simp [State.withCommands, ← hp]
  constructor
  · intro h
    by_cases hs : ∃ t, step (s.withCommands (c :: cs)) = .next t
    · obtain ⟨t, ht⟩ := hs
      refine ⟨t, ht, ?_⟩
      unfold RunsTo at h ⊢
      rw [hw t ht, ← core_run_next cs.length ht]
      exact h
    · exact absurd h (core_run_stops cs.length fun t ht => hs ⟨t, ht⟩)
  · rintro ⟨t, ht, h⟩
    unfold RunsTo at h ⊢
    rw [hw t ht, ← core_run_next cs.length ht] at h
    exact h

/-- What every step keeps holds at the end of a run. -/
theorem RunsTo_keeps {P : State → Prop} (hP : ∀ s t, P s → step s = .next t → P t) {cmds : List Cmd} {s t : State}
    (hs : P (s.withCommands cmds)) (h : RunsTo s cmds t) : P t := by
  induction cmds generalizing s with
  | nil => rw [RunsTo_nil] at h; subst h; exact hs
  | cons c cs ih =>
    obtain ⟨u, hu, h⟩ := RunsTo_cons.mp h
    refine ih ?_ h
    have hp : u.pending = cs := step_pending hu
    have hw : u.withCommands cs = u := by simp [State.withCommands, ← hp]
    rw [hw]
    exact hP _ _ hs hu

end Sys2Proof.Machine
end

