-- ==== Sys2Proof/Tests/Slice0.lean ====
section
/-! SUPPORT. The model's own tests. Every expected value is taken from the spec: the encodings of 30_encoding.md R60 to R64,
the rows of 95_test_vectors.md (named "S", "P", "A", "I", "K", "D" as there) or the rule a test names. The second part
shows, for every statement with hypotheses, operands and a state that meet them. -/

open Sys2Proof Sys2Proof.Machine Sys2Proof.Claims

namespace Sys2Proof.Tests

/-! ## What is well-formed (30_encoding.md R67, R69) -/

theorem test_word_of_load_is_no_command : Cmd.wellFormed (.word 0xA00000) = false := by decide
theorem test_load_is_a_command : Cmd.wellFormed (.load []) = true := by decide
theorem test_illegal_word_is_a_command : Cmd.wellFormed (.word 0x000000) = true := by decide
theorem test_ctrlw_operand_too_wide : AsmLine.wellFormed (.ctrlw 0x100) = false := by decide
theorem test_addrw_operand_too_wide : AsmLine.wellFormed (.addrw 0x100) = false := by decide
theorem test_dataw_operand_too_wide : AsmLine.wellFormed (.dataw 0x100) = false := by decide
theorem test_addrinc_other_step : AsmLine.wellFormed (.addrinc 2) = false := by decide
theorem test_mirror_operand_too_wide : AsmLine.wellFormed (.mirror 0x10000) = false := by decide
theorem test_setaddr_operand_too_wide : AsmLine.wellFormed (.setaddr 0x10000) = false := by decide
theorem test_operands_at_their_limit :
    AsmLine.wellFormed (.ctrlw 0xFF) = true ∧ AsmLine.wellFormed (.mirror 0xFFFF) = true ∧
    AsmLine.wellFormed (.addrinc 32) = true := by decide

/-! ## Decoding: words written out as op, rsv, opnd (R60, R63) -/

theorem test_decode_ctrlw : decode (0b0001#4 ++ 0b0000#4 ++ 0b0000000011111111#16) [] = .ok (.ctrlw 0xFF) := by decide
theorem test_decode_addrw : decode (0b0010#4 ++ 0b0000#4 ++ 0b0000000010101011#16) [] = .ok (.addrw 0xAB) := by decide
theorem test_decode_dataw : decode (0b0011#4 ++ 0b0000#4 ++ 0b0000000001010101#16) [] = .ok (.dataw 0x55) := by decide
theorem test_decode_datar : decode (0b0100#4 ++ 0b0000#4 ++ 0b0000000000000000#16) [] = .ok .datar := by decide
theorem test_decode_latrst : decode (0b0101#4 ++ 0b0000#4 ++ 0b0000000000000000#16) [] = .ok .latrst := by decide
theorem test_decode_addrr : decode (0b0110#4 ++ 0b0000#4 ++ 0b0000000000000000#16) [] = .ok .addrr := by decide
theorem test_decode_incq : decode (0b0111#4 ++ 0b0000#4 ++ 0b0000000000000000#16) [] = .ok .incq := by decide
theorem test_decode_addrinc1 : decode (0b1000#4 ++ 0b0000#4 ++ 0b0000000000000001#16) [] = .ok .addrinc1 := by decide
theorem test_decode_addrinc32 : decode (0b1000#4 ++ 0b0000#4 ++ 0b0000000000100000#16) [] = .ok .addrinc32 := by decide
theorem test_decode_mirror : decode (0b1001#4 ++ 0b0000#4 ++ 0b0010110000000101#16) [] = .ok (.mirror 0x2C05) := by decide
theorem test_decode_load :
    decode (0b1010#4 ++ 0b0000#4 ++ 0b0000000000000000#16) [0x4E] = .ok (.load [0x4E]) := by decide

/-- The illegal words of 95_test_vectors.md 2.6, each for its case of R65. -/
theorem test_decode_illegal :
    decode 0x000000 [] = .error .opcode ∧ decode 0xB00000 [] = .error .opcode ∧ decode 0xF00000 [] = .error .opcode ∧
    decode 0x110000 [] = .error .reservedBits ∧ decode 0x400001 [] = .error .operandNotZero ∧
    decode 0x100100 [] = .error .operandHighByte ∧ decode 0x800000 [] = .error .incrementStep ∧
    decode 0x800002 [] = .error .incrementStep ∧ decode 0x800021 [] = .error .incrementStep := by decide

/-- The words of program 3 and program 5 of 95_test_vectors.md. -/
theorem test_encode :
    encodeWord (.ctrlw 0x04) = 0x100004 ∧ encodeWord (.addrw 0x5F) = 0x20005F ∧ encodeWord (.dataw 0x55) = 0x300055 ∧
    encodeWord .datar = 0x400000 ∧ encodeWord .latrst = 0x500000 ∧ encodeWord .addrr = 0x600000 ∧
    encodeWord .incq = 0x700000 ∧ encodeWord .addrinc1 = 0x800001 ∧ encodeWord .addrinc32 = 0x800020 ∧
    encodeWord (.mirror 0x2C05) = 0x902C05 ∧ encodeWord (.load []) = 0xA00000 := by decide

theorem test_decodeTableWord :
    decodeTableWord 24 0x2000AB = some (.addrw 0xAB) ∧ decodeTableWord 24 0xA00000 = some (.load []) ∧
    decodeTableWord 24 0xB00000 = none := by decide

/-! ## The assembler (R69, R70) -/

theorem test_readLine_hexadecimal_and_comment :
    readLine [] "ADDRW 0x3F ; high byte".toList = some (.addrw 0x3F) := by decide
theorem test_readLine_decimal : readLine [] "ADDRINC 32".toList = some (.addrinc 32) := by decide
theorem test_readLine_image :
    readLine [("IMG".toList, [0x4E])] "LOAD IMG".toList = some (.load [0x4E]) := by decide
theorem test_readLine_unknown : readLine [] "JMP 0".toList = none := by decide
/-- R70: `SETADDR 0x3F12` is `LATRST; ADDRW 0x3F; ADDRW 0x12`. -/
theorem test_assemble_setaddr :
    assemble [.setaddr 0x3F12] = some [.word 0x500000, .word 0x20003F, .word 0x200012] := by decide
/-- R70: DUMMYR, SETINC1, SETINC32. -/
theorem test_assemble_pseudo :
    assemble [.dummyr, .setinc1, .setinc32] = some [.word 0x400000, .word 0x100000, .word 0x100004] := by decide
theorem test_assemble_error : assemble [.datar, .addrinc 2] = none := by decide

/-! ## A small engine -/

/-- The first bytes of CHRPAT (95_test_vectors.md section 0): 0xA5, 0xA4, as all of CHR. -/
def record (m : Mirroring) : CartridgeRecord := ⟨[], [0xA5, 0xA4], 0x00, m⟩

def params : InitParams := ⟨0x0000, [], [], [], []⟩

/-- An engine as after LOAD, with an address, control register and nametable. -/
def engine (m : Mirroring) (addr : Half) (ctrl : Byte) (nt : Memory) : EngineState where
  record := record m
  ctrl := ctrl
  addrHi := (addr >>> 8).setWidth 8
  addrLo := addr.setWidth 8
  awaitingHigh := true
  readBuffer := 0x00
  nt := nt
  pal := []
  oam := []
  oam2 := []
  fault := 0

/-- A run whose engine is `e`, LOAD taken, nothing output. -/
def running (e : EngineState) : State := ⟨.engine e, 1, [], [], params⟩

/-- A run at address `a` after LOAD of a Vertical image. -/
def at' (a : Half) : State := running (engine .vertical a 0x00 [])

/-- The state an instruction leaves. -/
def after (i : Instr) (s : State) : State :=
  match exec i s with
  | .next t => t
  | .fault _ | .refused _ => s

/-- What is shown of a state: address, latch, buffer, fault; none without an engine. -/
def seen (s : State) : Option (Half × Bool × Byte × Byte) :=
  s.engine?.map fun e => (e.addrValue, e.awaitingHigh, e.readBuffer, e.fault)

/-! ## One step of each instruction -/

/-- K3, K4, K5. -/
theorem test_ctrlw_incq :
    (after .incq (after (.ctrlw 0x04) (at' 0))).outputs = [.byte 32] ∧
    (after .incq (after (.ctrlw 0xFB) (at' 0))).outputs = [.byte 1] ∧
    (after .incq (after (.ctrlw 0xFF) (at' 0))).outputs = [.byte 32] := by decide
/-- K1. -/
theorem test_incq_reset : (after .incq (at' 0)).outputs = [.byte 1] := by decide
/-- S6. -/
theorem test_addrw_pair :
    (after .addrr (after (.addrw 0x08) (after (.addrw 0x21) (at' 0)))).outputs = [.half 0x2108] := by decide
/-- A7. -/
theorem test_addrw_masks : seen (after (.addrw 0xFF) (at' 0x00AB)) = some (0x3FAB, false, 0, 0) := by decide
/-- S9. -/
theorem test_latrst :
    seen (after (.addrw 0x00) (after (.addrw 0x22) (after .latrst (after (.addrw 0x21) (at' 0))))) =
      some (0x2200, true, 0, 0) := by decide
/-- S10, I1. -/
theorem test_addrinc1 :
    seen (after .addrinc1 (at' 0x20FF)) = some (0x2100, true, 0, 0) ∧
    seen (after .addrinc1 (at' 0x3FFF)) = some (0x0000, true, 0, 0) := by decide
/-- S11, I3. -/
theorem test_addrinc32 :
    seen (after .addrinc32 (at' 0x3FFF)) = some (0x001F, true, 0, 0) ∧
    seen (after .addrinc32 (at' 0x20E0)) = some (0x2100, true, 0, 0) := by decide
/-- R136. -/
theorem test_addrr : (after .addrr (at' 0x2803)).outputs = [.half 0x2803] := by decide

/-- The rows of 95_test_vectors.md 2.4 at the first byte of each table and at the last of the domain. -/
theorem test_mirrorIndex :
    [0x2000, 0x2400, 0x2800, 0x2C05, 0x2FFF, 0x3C05, 0x3EFF].map (mirrorIndex .vertical) =
      [0x000, 0x400, 0x000, 0x405, 0x7FF, 0x405, 0x6FF] ∧
    [0x2000, 0x2400, 0x2800, 0x2C05, 0x2FFF, 0x3C05, 0x3EFF].map (mirrorIndex .horizontal) =
      [0x000, 0x000, 0x400, 0x405, 0x7FF, 0x405, 0x6FF] ∧
    [0x2000, 0x2400, 0x2800, 0x2C05, 0x2FFF, 0x3C05, 0x3EFF].map (mirrorIndex .fourScreen) =
      [0x000, 0x400, 0x800, 0xC05, 0xFFF, 0xC05, 0xEFF] := by decide
/-- 2.4: 0x2405, 0x1FFF, 0x3F00 in a Vertical engine. -/
theorem test_mirror :
    (after (.mirror 0x2405) (at' 0)).outputs = [.half 0x405] ∧
    seen (after (.mirror 0x1FFF) (at' 0)) = some (0, true, 0, 0x15) ∧
    seen (after (.mirror 0x3F00) (at' 0)) = some (0, true, 0, 0x15) := by decide

/-- S15 and R186, with CHR[0] = 0xA5. -/
theorem test_datar_pattern :
    seen (after .datar (at' 0x0000)) = some (0x0001, true, 0xA5, 0) ∧
    (after .datar (after .datar (at' 0x0000))).outputs = [.byte 0x00, .byte 0xA5] := by decide
/-- D3, D5, D6, D8, D10, and D11's first read. -/
theorem test_datar_regions :
    seen (after .datar (at' 0x3000)) = some (0x3001, true, 0, 0x10) ∧
    seen (after .datar (at' 0x3F00)) = some (0x3F01, true, 0, 0x11) ∧
    seen (after .datar (at' 0x3FFF)) = some (0x0000, true, 0, 0x11) ∧
    seen (after .datar (running (engine .fourScreen 0x2800 0 []))) = some (0x2801, true, 0, 0x14) ∧
    seen (after .datar (at' 0x0002)) = some (0x0003, true, 0, 0x13) ∧
    seen (after .datar (running (engine .horizontal 0x2400 0 [(0, 0x41)]))) = some (0x2401, true, 0x41, 0) := by
  refine ⟨?_, ?_, ?_, ?_, ?_, ?_⟩ <;> decide
/-- D12, D13. -/
theorem test_dataw :
    seen (after (.dataw 0x55) (at' 0x2000)) = some (0x2000, true, 0, 0x21) ∧
    after .datar (after (.dataw 0x55) (at' 0x2000)) = after (.dataw 0x55) (at' 0x2000) := by decide

/-! ## The loader -/

/-- S17, P14, P20, P21, P23. -/
theorem test_parse :
    parse [] = .error .invalidFormat ∧ parse [0x4E, 0x45, 0x53] = .error .invalidFormat ∧
    parse [0x4E, 0x45, 0x53, 0x1A] = .error .outOfBounds ∧
    parse (headerOf 0 0 0 0) = .ok ⟨[], [], 0, .horizontal⟩ ∧
    parse [0x4E, 0x45, 0x53, 0x00, 0, 0, 0, 0x01, 0, 0, 0, 0, 0, 0, 0, 0] = .error .invalidFormat ∧
    parse (headerOf 1 0 0 1) = .error .unsupportedFormat ∧
    parse [0x4E, 0x45, 0x53, 0x1A, 0x01, 0x01, 0x01, 0, 0, 0] = .error .outOfBounds := by decide
/-- S1 to S4 and P12, the mapper and mirroring bytes alone: images without pages. -/
theorem test_parse_header_bits :
    parse (headerOf 0 0 0x10 0x20) = .ok ⟨[], [], 0x21, .horizontal⟩ ∧
    parse (headerOf 0 0 0x09 0x00) = .ok ⟨[], [], 0x00, .fourScreen⟩ ∧
    parse (headerOf 0 0 0x01 0x00) = .ok ⟨[], [], 0x00, .vertical⟩ ∧
    parse (headerOf 0 0 0x0B 0x00) = .ok ⟨[], [], 0x00, .fourScreen⟩ := by decide
/-- P14 as a run's first command (R113), and an image without header (R115). -/
theorem test_load :
    seen (after (.load (headerOf 0 0 0 0)) (State.ofRun params [])) = some (0x0000, true, 0x00, 0) ∧
    (after (.load []) (State.ofRun params [])).run = .noEngine 0x01 := by decide
/-- 95_test_vectors.md 2.6: the second LOAD of a run. -/
theorem test_load_again : seen (after (.load (headerOf 0 0 0 0)) (at' 0)) = some (0, true, 0, 0x22) := by decide

/-! ## Steps -/

/-- The state a step leaves. -/
def stepped (s : State) : State :=
  match step s with
  | .next t => t
  | .fault _ | .refused _ => s

/-- 95_test_vectors.md 2.6: `CTRLW 0x04` and `0x000000` as first command; R34. -/
theorem test_first_commands :
    stepped (State.ofRun params [.word 0x100004]) = ⟨.noEngine 0x22, 1, [], [], params⟩ ∧
    stepped (State.ofRun params [.word 0x000000]) = ⟨.noEngine 0x20, 1, [], [], params⟩ := by decide
/-- A table word placed in a run is what the next step runs. -/
theorem test_withFetchWord :
    seen (stepped ((at' 0x3FFF).withFetchWord 24 0x800020)) = some (0x001F, true, 0, 0) ∧
    seen (stepped (State.withFetchWord (at' 0) 24 0xB00000)) = some (0, true, 0, 0x20) ∧
    (stepped (State.reset.withFetchWord 24 0xA00000)).run = .noEngine 0x01 := by decide

/-! ## Witnesses: every statement with hypotheses has operands and a state that meet them -/

/-- The two hypotheses that the statements about an instruction in an engine share. -/
abbrev ready (s : State) (e : EngineState) : Prop := s.run = .engine e ∧ e.fault = 0

theorem witness_EncodeOfDecodeIsTheWord : decode 0x90FFFF [] = .ok (.mirror 0xFFFF) := by decide

/-- A state with its next command, for the statements about a step. -/
def next (c : Cmd) : State := { at' 0x2000 with pending := [c] }

theorem witness_StepRunsTheDecodedCommand :
    (next (.word 0x800001)).pending = .word 0x800001 :: [] ∧ Cmd.wellFormed (.word 0x800001) = true ∧
    decodeCmd (.word 0x800001) = .ok .addrinc1 ∧
    exec .addrinc1 (next (.word 0x800001)) = .next (after .addrinc1 (next (.word 0x800001))) :=
  ⟨rfl, by decide, by decide, rfl⟩

/-- The first step of a run, with a LOAD. -/
theorem witness_StepRunsTheDecodedCommand_load :
    (State.ofRun params [.load (headerOf 0 0 0 0)]).pending = .load (headerOf 0 0 0 0) :: [] ∧
    decodeCmd (.load (headerOf 0 0 0 0)) = .ok (.load (headerOf 0 0 0 0)) :=
  ⟨rfl, by decide⟩

theorem witness_IllegalWordIsRecordedByTheStep_engine :
    (next (.word 0x100100)).pending = .word 0x100100 :: [] ∧ decode 0x100100 [] = .error .operandHighByte ∧
    (next (.word 0x100100)).run = .engine (engine .vertical 0x2000 0 []) ∧ (engine .vertical 0x2000 0 []).fault = 0 := by
  decide
theorem witness_IllegalWordIsRecordedByTheStep_noEngine :
    (State.ofRun params [.word 0x000000]).pending = .word 0x000000 :: [] ∧ decode 0x000000 [] = .error .opcode ∧
    (State.ofRun params [.word 0x000000]).run = .noEngine 0 := by decide
theorem witness_IllegalWordIsRecordedByTheStep_faulted :
    decode 0xB00000 [] = .error .opcode ∧ (RunState.noEngine 0x02).faultCode ≠ 0 ∧
    ({ State.ofRun params [.word 0xB00000] with run := .noEngine 0x02 } : State).pending = .word 0xB00000 :: [] := by decide

theorem witness_StepTakesExactlyOneCommand :
    (at' 0).pending = [] ∧ (next (.word 0xA00000)).pending = .word 0xA00000 :: [] ∧
    (next (.word 0xA00001)).pending = .word 0xA00001 :: [] ∧ Cmd.word 0xA00001 ≠ .word 0xA00000 ∧
    Cmd.load [] ≠ .word 0xA00000 := by decide

/-- A faulted engine and a faulted run without one. -/
theorem witness_FaultedRunIgnoresEveryInstruction :
    (after (.dataw 0x55) (at' 0)).run.faultCode ≠ 0 ∧ (after (.load []) (State.ofRun params [])).run.faultCode ≠ 0 := by
  decide
theorem witness_FaultedRunStaysStuck :
    (∀ c ∈ [Cmd.word 0x100004, Cmd.word 0x600000, Cmd.load []], c.wellFormed = true) ∧
    (after (.dataw 0x55) (at' 0)).run.faultCode ≠ 0 := by decide
theorem witness_CommandBeforeLoadIsRefused :
    (State.ofRun params []).run = .noEngine 0 ∧ ∀ raw, Instr.datar ≠ .load raw := by
  constructor
  · decide
  · intro raw h; cases h
theorem witness_LaterLoadIsRefused :
    (at' 0).run = .engine (engine .vertical 0 0 []) ∧ (engine .vertical 0 0 []).fault = 0 ∧
    ({ State.ofRun params [] with cursor := 1 } : State).run = .noEngine 0 ∧
    ({ State.ofRun params [] with cursor := 1 } : State).cursor ≠ 0 := by decide
theorem witness_FaultChangesOnlyTheFaultRegister :
    Instr.dataw 0x55 ≠ .datar ∧ ready (at' 0) (engine .vertical 0 0 []) ∧
    exec (.dataw 0x55) (at' 0) = .next (after (.dataw 0x55) (at' 0)) ∧
    (after (.dataw 0x55) (at' 0)).run = .engine { engine .vertical 0 0 [] with fault := 0x21 } ∧ (0x21 : Byte) ≠ 0 :=
  ⟨by decide, by decide, rfl, by decide, by decide⟩

/-- All the hypotheses of CtrlwReplacesTheWholeRegister, IncqReturnsTheStep, AddrwWritesTheLatchedHalf,
AddrincRunsThePrimitive, AddrincClosedForm, LatrstSetsTheLatch, AddrrReturnsTheValue, SetaddrSetsTheAddress,
DatarAlwaysAdvancesTheAddress and DatawIsRefused: at both ends of the address range, with both steps, in two modes. -/
theorem witness_engine_without_fault :
    ready (at' 0x0000) (engine .vertical 0x0000 0 []) ∧
    ready (running (engine .horizontal 0x3FFF 0x04 [])) (engine .horizontal 0x3FFF 0x04 []) := by decide
/-- CtrlwReplacesTheWholeRegister's last clause. -/
theorem witness_CtrlwReplacesTheWholeRegister :
    ready (at' 0) (engine .vertical 0 0 []) ∧ (0x04 : Byte) = 0x04 := by decide
/-- IncqReturnsTheStep in both of its cases. -/
theorem witness_IncqReturnsTheStep :
    (ready (running (engine .vertical 0 0x04 [])) (engine .vertical 0 0x04 []) ∧
      (engine .vertical 0 0x04 []).ctrl &&& 0x04 ≠ 0) ∧
    ready (running (engine .vertical 0 0xFB [])) (engine .vertical 0 0xFB []) ∧
      ¬ (engine .vertical 0 0xFB []).ctrl &&& 0x04 ≠ 0 := by decide
theorem witness_OtherControlBitsHaveNoEffect :
    (at' 0).run = .engine (engine .vertical 0 0 []) ∧ (0xFB : Byte) &&& 0x04 = (engine .vertical 0 0 []).ctrl &&& 0x04 ∧
    exec .datar (at' 0) = .next (after .datar (at' 0)) ∧
    (after .datar (at' 0)).run = .engine { engine .vertical 1 0 [] with readBuffer := 0xA5 } :=
  ⟨rfl, by decide, rfl, by decide⟩
/-- The latch cleared, at the highest address. -/
def halfWritten : EngineState := { engine .vertical 0x3FFF 0 [] with awaitingHigh := false }
/-- The high byte at its limit, the latch in both values. -/
theorem witness_AddrwClosedForm :
    (ready (at' 0x3FFF) (engine .vertical 0x3FFF 0 []) ∧ (engine .vertical 0x3FFF 0 []).addrHi ≤ 0x3F ∧
      (engine .vertical 0x3FFF 0 []).awaitingHigh = true) ∧
    ready (running halfWritten) halfWritten ∧ halfWritten.addrHi ≤ 0x3F ∧ halfWritten.awaitingHigh = false := by decide
/-- Both outcomes of ADDRW's mask from that state: with the high byte 0x3F and with 0x40. -/
theorem witness_AddrwWritesTheLatchedHalf :
    ready (at' 0x3FFF) (engine .vertical 0x3FFF 0 []) ∧
    ¬ ((0x3F : Byte) ++ (engine .vertical 0x3FFF 0 []).addrLo : Half) > 0x3FFF ∧
    ((0x40 : Byte) ++ (engine .vertical 0x3FFF 0 []).addrLo : Half) > 0x3FFF := by decide
theorem witness_AddrrReturnsTheValue :
    ready (at' 0x3FFF) (engine .vertical 0x3FFF 0 []) ∧ (engine .vertical 0x3FFF 0 []).addrHi ≤ 0x3F := by decide

/-- S8 as a run: three ADDRWs from a set latch. -/
theorem witness_LatchParityLaw :
    (at' 0).run = .engine (engine .vertical 0 0 []) ∧ (engine .vertical 0 0 []).awaitingHigh = true ∧
    (∀ c ∈ [Cmd.word 0x200021, Cmd.word 0x200008, Cmd.word 0x20003F], c ≠ .word 0x500000) ∧
    RunsTo (at' 0) [.word 0x200021, .word 0x200008, .word 0x20003F]
      ⟨.engine { engine .vertical 0x3F08 0 [] with awaitingHigh := false }, 4, [], [], params⟩ ∧
    ({ engine .vertical 0x3F08 0 [] with awaitingHigh := false } : EngineState).fault = 0 :=
  ⟨rfl, rfl, by decide, rfl, rfl⟩
/-- Program 3, commands 5 to 7, with CHR instead of a nametable: a DATAR between the two writes of a pair. -/
def betweenWrites : EngineState := { engine .vertical 0x0000 0 [] with awaitingHigh := false }
theorem witness_PendingLowWriteAfterRead :
    ready (running betweenWrites) betweenWrites ∧ betweenWrites.awaitingHigh = false ∧
    exec .datar (running betweenWrites) = .next (after .datar (running betweenWrites)) ∧
    (after .datar (running betweenWrites)).run = .engine { betweenWrites with addrLo := 0x01, readBuffer := 0xA5 } ∧
    ({ betweenWrites with addrLo := 0x01, readBuffer := 0xA5 } : EngineState).fault = 0 :=
  ⟨by decide, rfl, rfl, by decide, rfl⟩

theorem witness_MirrorFollowsTheFoldTable :
    ready (at' 0) (engine .vertical 0 0 []) ∧ ((0x2000 : Half) ≤ 0x2000 ∧ (0x2000 : Half) ≤ 0x2FFF) ∧
    (0x2000 : Half) ≤ 0x2FFF ∧ (0x2FFF : Half) ≤ 0x2FFF := by decide
theorem witness_MirrorFollowsTheFourSteps :
    ready (at' 0) (engine .vertical 0 0 []) ∧ ((0x2000 : Half) ≤ 0x2000 ∧ (0x2000 : Half) ≤ 0x3EFF) ∧
    (0x2000 : Half) ≤ 0x3EFF ∧ (0x3EFF : Half) ≤ 0x3EFF := by decide
theorem witness_MirrorOutsideItsDomainFaults :
    ready (at' 0) (engine .vertical 0 0 []) ∧ ((0x1FFF : Half) < 0x2000 ∨ (0x3EFF : Half) < 0x1FFF) ∧
    ((0x3F00 : Half) < 0x2000 ∨ (0x3EFF : Half) < 0x3F00) := by decide
/-- MirrorIndexRange, its FourScreen clause on both sides of its bound. -/
theorem witness_MirrorIndexRange :
    (0x2000 : Half) ≤ 0x27FF ∧ (0x27FF : Half) ≤ 0x3EFF ∧ (0x2000 : Half) ≤ 0x2800 ∧ (0x2800 : Half) ≤ 0x3EFF ∧
    Mirroring.vertical ≠ .fourScreen ∧
    mirrorIndex .fourScreen 0x27FF < 0x800 ∧ (0x27FF : Half) &&& 0x0800 = 0 ∧
    0x800 ≤ mirrorIndex .fourScreen 0x2800 ∧ (0x2800 : Half) &&& 0x0800 ≠ 0 := by decide

/-- An engine with 0x2000 character bytes, the largest index of pattern space among them. -/
def fullChr : EngineState :=
  { engine .vertical 0x1FFF 0 [] with record := ⟨[], List.replicate 8192 0x5A, 0, .vertical⟩ }

theorem witness_DatarReadsPatternSpace :
    ready (running fullChr) fullChr ∧ addrOf fullChr ≤ 0x1FFF ∧
    fullChr.record.characterData[(addrOf fullChr).toNat]? = some 0x5A :=
  ⟨⟨rfl, rfl⟩, by decide, List.getElem?_replicate_of_lt (by decide)⟩
theorem witness_DatarReadsPatternSpace_low :
    ready (at' 0x0000) (engine .vertical 0x0000 0 []) ∧ addrOf (engine .vertical 0x0000 0 []) ≤ 0x1FFF ∧
    (engine .vertical 0x0000 0 []).record.characterData[(addrOf (engine .vertical 0x0000 0 [])).toNat]? = some 0xA5 := by decide
/-- Nametable space for an engine. -/
abbrev inNametables (e : EngineState) : Prop :=
  ready (running e) e ∧ 0x2000 ≤ addrOf e ∧ addrOf e ≤ 0x2FFF ∧ physicalIndex e.record.mirroring (addrOf e) < 2048
/-- Both ends of nametable space, and FourScreen's last address inside NT. -/
theorem witness_DatarReadsNametableSpace :
    inNametables (engine .vertical 0x2000 0 []) ∧ inNametables (engine .horizontal 0x2FFF 0 []) ∧
    inNametables (engine .fourScreen 0x27FF 0 []) := by decide
theorem witness_DatarInTheAliasRangeFaults :
    (ready (at' 0x3000) (engine .vertical 0x3000 0 []) ∧ 0x3000 ≤ addrOf (engine .vertical 0x3000 0 []) ∧
      addrOf (engine .vertical 0x3000 0 []) ≤ 0x3EFF) ∧
    ready (at' 0x3EFF) (engine .vertical 0x3EFF 0 []) ∧ 0x3000 ≤ addrOf (engine .vertical 0x3EFF 0 []) ∧
      addrOf (engine .vertical 0x3EFF 0 []) ≤ 0x3EFF := by decide
theorem witness_DatarAboveTheAliasRangeFaults :
    (ready (at' 0x3F00) (engine .vertical 0x3F00 0 []) ∧ 0x3F00 ≤ addrOf (engine .vertical 0x3F00 0 []) ∧
      addrOf (engine .vertical 0x3F00 0 []) ≤ 0x3FFF) ∧
    (ready (at' 0x3FFF) (engine .vertical 0x3FFF 0 []) ∧ 0x3F00 ≤ addrOf (engine .vertical 0x3FFF 0 []) ∧
      addrOf (engine .vertical 0x3FFF 0 []) ≤ 0x3FFF) ∧
    ready (at' 0x4000) (engine .vertical 0x4000 0 []) ∧ 0x4000 ≤ addrOf (engine .vertical 0x4000 0 []) := by decide
/-- The first index past CHR, and both ends of FourScreen's faulting range. -/
theorem witness_DatarOutsideTheStoreFaults :
    (ready (at' 0x0002) (engine .vertical 0x0002 0 []) ∧ addrOf (engine .vertical 0x0002 0 []) ≤ 0x1FFF ∧
      (engine .vertical 0x0002 0 []).record.characterData.length ≤ (addrOf (engine .vertical 0x0002 0 [])).toNat) ∧
    (ready (running (engine .fourScreen 0x2800 0 [])) (engine .fourScreen 0x2800 0 []) ∧
      (engine .fourScreen 0x2800 0 []).record.mirroring = .fourScreen ∧
      0x2800 ≤ addrOf (engine .fourScreen 0x2800 0 []) ∧ addrOf (engine .fourScreen 0x2800 0 []) ≤ 0x2FFF) ∧
    ready (running (engine .fourScreen 0x2FFF 0 [])) (engine .fourScreen 0x2FFF 0 []) ∧
      addrOf (engine .fourScreen 0x2FFF 0 []) ≤ 0x2FFF := by decide

/-- D11's first DATAR, two commands without DATAR, and what they leave. -/
def firstRead : State := after .datar (running (engine .horizontal 0x2400 0 [(0, 0x41)]))
def secondRead : EngineState := { engine .horizontal 0x2402 0x04 [(0, 0x41)] with readBuffer := 0x41 }
def beforeSecondRead : State := ⟨.engine secondRead, 3, [], [.byte 0x00], params⟩
/-- The law with its clause about a first DATAR. -/
theorem witness_LatencyLaw :
    (∀ c ∈ [Cmd.word 0x100004, Cmd.word 0x800001], c ≠ .word 0x400000) ∧
    exec .datar (running (engine .horizontal 0x2400 0 [(0, 0x41)])) = .next firstRead ∧
    firstRead.run = .engine { engine .horizontal 0x2401 0 [(0, 0x41)] with readBuffer := 0x41 } ∧
    RunsTo firstRead [.word 0x100004, .word 0x800001] beforeSecondRead ∧
    beforeSecondRead.run = .engine secondRead ∧
    exec .datar beforeSecondRead = .next (after .datar beforeSecondRead) ∧
    (after .datar beforeSecondRead).run = .engine { engine .horizontal 0x2422 0x04 [(0, 0x41)] with readBuffer := 0x00 } :=
  ⟨by decide, rfl, rfl, rfl, rfl, rfl, by decide⟩
/-- A run at LOAD, with INIT_ADDR = 0x2000, and the state LOAD leaves. -/
def beforeLoad : State := State.ofRun { params with addr := 0x2000 } []
def loaded : EngineState := { engine .horizontal 0x2000 0 [] with record := ⟨[], [], 0, .horizontal⟩ }
/-- The law with its clause about LOAD, no command standing between LOAD and the DATAR. -/
theorem witness_LatencyLaw_load :
    beforeLoad.run = .noEngine 0 ∧
    exec (.load (headerOf 0 0 0 0)) beforeLoad = .next { beforeLoad with run := .engine loaded } ∧
    RunsTo { beforeLoad with run := .engine loaded } [] { beforeLoad with run := .engine loaded } ∧
    exec .datar { beforeLoad with run := .engine loaded } =
      .next (after .datar { beforeLoad with run := .engine loaded }) ∧
    (after .datar { beforeLoad with run := .engine loaded }).run.faultCode = 0 :=
  ⟨rfl, rfl, rfl, rfl, by decide⟩

/-- The hypothesis of MirroringFromTwoHeaderBits and ParsedRegionsAreWholePages, and an image ParseAcceptsExactly is about. -/
theorem witness_parse_accepts : parse (headerOf 0 0 0x01 0x50) = .ok ⟨[], [], 0x50, .vertical⟩ := by decide
theorem witness_TrainerIsSkipped : (0xF9 : Byte).getLsbD 2 = false ∧ (List.replicate 512 (0x00 : Byte)).length = 512 :=
  ⟨by decide, List.length_replicate⟩
/-- The changed bytes of UndefinedContentIsIgnored at the ends of their ranges. -/
theorem witness_UndefinedContentIsIgnored :
    parse (headerOf 0 0 0 0) = .ok ⟨[], [], 0, .horizontal⟩ ∧ (8 ≤ 8 ∧ 8 < 16) ∧ (8 ≤ 15 ∧ 15 < 16) ∧
    (0x02 : Byte) &&& 0xFD = (headerOf 0 0 0 0).getD 6 0 &&& 0xFD ∧
    (0x0C : Byte) &&& 0xF3 = (headerOf 0 0 0 0).getD 7 0 &&& 0xF3 := by decide
theorem witness_ParseOfSerializeIsTheRecord :
    (2 ≤ 255 ∧ 1 ≤ 255) ∧ (List.replicate (2 * 16384) (0xEA : Byte)).length = 2 * 16384 ∧
    (List.replicate (1 * 8192) (0xA5 : Byte)).length = 1 * 8192 :=
  ⟨by decide, List.length_replicate, List.length_replicate⟩
theorem witness_LoadConstructsTheEngine :
    (State.ofRun params []).run = .noEngine 0 ∧ (State.ofRun params []).cursor = 0 ∧
    parse (headerOf 0 0 0x08 0) = .ok ⟨[], [], 0, .fourScreen⟩ := by decide
theorem witness_LoadRecordsTheParseError :
    (State.ofRun params []).run = .noEngine 0 ∧ (State.ofRun params []).cursor = 0 ∧ parse [] = .error .invalidFormat ∧ parse (headerOf 0 0 0 3) = .error .unsupportedFormat ∧
    parse (headerOf 1 0 0 0) = .error .outOfBounds := by decide

/-- A state inside a run, with an address, a nametable byte and an output. -/
def inside : State :=
  ⟨.engine { engine .vertical 0x3FFF 0x04 [(0x7FF, 0x99)] with record := ⟨[], [], 0, .vertical⟩ }, 3,
    [.word 0x400000], [.half 0x3FFF], params⟩

theorem witness_StepKeepsTheInvariant : inside.Inv ∧ step inside = .next (stepped inside) := by
  refine ⟨⟨⟨?_, ?_⟩, ?_, ?_⟩, rfl⟩
  · decide
  · decide
  · decide
  · intro o ho
    have h : o = .half 0x3FFF := by simpa [inside] using ho
    subst h
    decide
/-- And at the beginning of a run, before LOAD. -/
theorem witness_StepKeepsTheInvariant_first :
    (State.ofRun params [.load (headerOf 0 0 0 0)]).Inv ∧
    step (State.ofRun params [.load (headerOf 0 0 0 0)]) =
      .next (stepped (State.ofRun params [.load (headerOf 0 0 0 0)])) := by
  refine ⟨⟨⟨?_, ?_⟩, ?_, ?_⟩, rfl⟩
  · decide
  · decide
  · decide
  · intro o ho
    simp [State.ofRun] at ho

theorem witness_EachComponentHasItsWriters :
    (at' 0).run = .engine (engine .vertical 0 0 []) ∧ exec (.ctrlw 0x80) (at' 0) = .next (after (.ctrlw 0x80) (at' 0)) :=
  ⟨rfl, rfl⟩
/-- Two runs that differ in PAL, OAM, the program code and the mapper id. -/
theorem witness_UnreadStateCannotBeObserved :
    (next (.word 0x400000)).sameButUnread
      { next (.word 0x400000) with
        run := .engine { engine .vertical 0x2000 0 [] with
                         pal := [(3, 0x30)], oam := [(255, 0x01)], record := ⟨[0xEA], [0xA5, 0xA4], 0x21, .vertical⟩ } } ∧
    step (next (.word 0x400000)) = .next (stepped (next (.word 0x400000))) :=
  ⟨⟨rfl, rfl, rfl, rfl, rfl, rfl⟩, rfl⟩
theorem witness_CtrlwAndLatrstAreIdempotent :
    (Instr.ctrlw 0x04 = .latrst ∨ ∃ b, Instr.ctrlw 0x04 = .ctrlw b) ∧
    exec (.ctrlw 0x04) (at' 0) = .next (after (.ctrlw 0x04) (at' 0)) :=
  ⟨.inr ⟨0x04, rfl⟩, rfl⟩
/-- Each range at its limit and one above, and a line that assembles with one that does not. -/
theorem witness_AssembledLinesDecodeToTheirExpansion :
    (0xFF ≤ 0xFF ∧ ¬ 0x100 ≤ 0xFF) ∧ (0xFFFF ≤ 0xFFFF ∧ ¬ 0x10000 ≤ 0xFFFF) ∧ (33 ≠ 1 ∧ 33 ≠ 32) ∧
    assemble [.setaddr 0xFFFF] = some [.word 0x500000, .word 0x2000FF, .word 0x2000FF] ∧
    assemble [.datar] = some [.word 0x400000] ∧ assemble [.ctrlw 0x100] = none := by decide

/-- ReadBufferIsDatarsAlone: a DATAR that writes the buffer and completes, in pattern and in nametable space. -/
theorem witness_ReadBufferIsDatarsAlone :
    exec .datar (at' 0x0000) = .next (after .datar (at' 0x0000)) ∧
    (after .datar (at' 0x0000)).run = .engine { engine .vertical 0x0001 0 [] with readBuffer := 0xA5 } ∧
    exec .datar (running (engine .horizontal 0x2400 0 [(0, 0x41)])) = .next firstRead ∧
    firstRead.run = .engine { engine .horizontal 0x2401 0 [(0, 0x41)] with readBuffer := 0x41 } ∧
    0x2000 ≤ addrOf (engine .horizontal 0x2400 0 [(0, 0x41)]) :=
  ⟨rfl, by decide, rfl, by decide, by decide⟩
/-- ReadBufferIsDatarsAlone: another instruction, and LOAD. -/
theorem witness_ReadBufferIsDatarsAlone_others :
    Instr.addrr ≠ .datar ∧ exec .addrr (at' 0) = .next (after .addrr (at' 0)) ∧
    (after .addrr (at' 0)).run = .engine (engine .vertical 0 0 []) ∧
    beforeLoad.run = .noEngine 0 ∧
    exec (.load (headerOf 0 0 0 0)) beforeLoad = .next { beforeLoad with run := .engine loaded } :=
  ⟨by decide, rfl, by decide, rfl, rfl⟩
/-- ProgramDataFollowsTheTrainer without a trainer. -/
theorem witness_ProgramDataFollowsTheTrainer :
    parse (headerOf 0 0 0 0) = .ok ⟨[], [], 0, .horizontal⟩ ∧ ((headerOf 0 0 0 0).getD 6 0).getLsbD 2 = false := by decide
/-- An image of a header with the trainer bit and 512 bytes: nothing but the trainer follows (R106, R107). -/
theorem test_parse_trainer {trainer : List Byte} (h : trainer.length = 512) :
    parse (headerOf 0 0 0x04 0 ++ trainer) = .ok ⟨[], [], 0, .horizontal⟩ := by
  simp [parse, h, magic, formatVersion, headerByte, versionShift, regionEnd, chrStart, prgStart, prgLen, chrLen,
    Config.headerSize, Config.trainerSize, Config.prgPage, Config.chrPage, slice, headerMapperId, headerMirroring]
/-- ProgramDataFollowsTheTrainer with one, and the two ends of its bytes. -/
theorem witness_ProgramDataFollowsTheTrainer_trainer :
    parse (headerOf 0 0 0x04 0 ++ List.replicate 512 0) = .ok ⟨[], [], 0, .horizontal⟩ ∧
    ((headerOf 0 0 0x04 0 ++ List.replicate 512 (0 : Byte)).getD 6 0).getLsbD 2 = true ∧
    (16 ≤ 16 ∧ 16 < 528) ∧ (16 ≤ 527 ∧ 527 < 528) :=
  ⟨test_parse_trainer List.length_replicate, by decide, by decide, by decide⟩

end Sys2Proof.Tests
end

section
/-! SUPPORT. Facts about the model that the claims of the state rest on: what a command does from an engine, what it does
to the read buffer, and what DATAR fetches (10_state.md R28, 44_vram_mirroring.md R160, 45_data_port.md R180-R182). -/

namespace Sys2Proof.Machine

open Sys2Proof.Claims

/-! ## A command in an engine -/

/-- In a faulted run an instruction has no effect, LOAD too (60_exceptions.md R205). -/
theorem exec_faulted {s : State} (hf : s.run.faultCode ≠ 0) (i : Instr) : exec i s = .next s := by
  cases i with
  | load raw => exact if_pos (State.faulted_of_ne hf)
  | _ => exact (exec_eq_inEngine (by simp) s).trans (State.inEngine_faulted hf _)

/-- Everything an instruction can answer from an engine. -/
theorem exec_engine_cases {i : Instr} {s t : State} {e : EngineState} (hr : s.run = .engine e)
    (h : exec i s = .next t) : (e.fault ≠ 0 ∧ t = s) ∨ (e.fault = 0 ∧ t = s.finish (effectOf i e)) := by
  by_cases hf : e.fault = 0
  · rw [exec_engine hr hf] at h
    exact .inr ⟨hf, by simpa using h.symm⟩
  · rw [exec_faulted (by simpa [hr] using hf)] at h
    exact .inl ⟨hf, by simpa using h.symm⟩

/-- The engine a command leaves, the raised fault recorded (60_exceptions.md R203, R204). -/
def CommandEnd.engineAfter : CommandEnd → EngineState
  | .done e _ => e
  | .raised e c => { e with fault := c.code }

@[simp] theorem CommandEnd.engineAfter_done (e : EngineState) (out : Option Output) :
    (CommandEnd.done e out).engineAfter = e := rfl
@[simp] theorem CommandEnd.engineAfter_raised (e : EngineState) (c : Cause) :
    (CommandEnd.raised e c).engineAfter = { e with fault := c.code } := rfl

@[simp] theorem State.finish_run (s : State) (r : CommandEnd) : (s.finish r).run = .engine r.engineAfter := by
  cases r <;> rfl

/-- Everything an instruction can answer from an engine, with the engine it leaves. -/
theorem exec_engineAfter_cases {i : Instr} {s t : State} {e f : EngineState} (hs : s.run = .engine e)
    (h : exec i s = .next t) (ht : t.run = .engine f) :
    (e.fault ≠ 0 ∧ t = s ∧ f = e) ∨
      (e.fault = 0 ∧ t = s.finish (effectOf i e) ∧ f = (effectOf i e).engineAfter) := by
  obtain ⟨hf, rfl⟩ | ⟨hf, rfl⟩ := exec_engine_cases hs h
  · exact .inl ⟨hf, rfl, by simpa [hs] using ht.symm⟩
  · exact .inr ⟨hf, rfl, by simpa using ht.symm⟩

/-! ## The components the increment leaves alone (42_address_port.md R132) -/

@[simp] theorem EngineState.addrIncrement_record (e : EngineState) (step : Byte) :
    (e.addrIncrement step).record = e.record := by rw [e.addrIncrement_frame]
@[simp] theorem EngineState.addrIncrement_readBuffer (e : EngineState) (step : Byte) :
    (e.addrIncrement step).readBuffer = e.readBuffer := by rw [e.addrIncrement_frame]
@[simp] theorem EngineState.addrIncrement_nt (e : EngineState) (step : Byte) :
    (e.addrIncrement step).nt = e.nt := by rw [e.addrIncrement_frame]
@[simp] theorem EngineState.addrIncrement_fault (e : EngineState) (step : Byte) :
    (e.addrIncrement step).fault = e.fault := by rw [e.addrIncrement_frame]

/-! ## The read buffer is not read outside DATAR (10_state.md R28) -/

/-- An engine with another byte in its read buffer. -/
def EngineState.withBuffer (b : Byte) (e : EngineState) : EngineState := { e with readBuffer := b }

@[simp] theorem EngineState.withBuffer_readBuffer (b : Byte) (e : EngineState) : (e.withBuffer b).readBuffer = b := rfl
@[simp] theorem EngineState.withBuffer_record (b : Byte) (e : EngineState) : (e.withBuffer b).record = e.record := rfl
@[simp] theorem EngineState.withBuffer_awaitingHigh (b : Byte) (e : EngineState) :
    (e.withBuffer b).awaitingHigh = e.awaitingHigh := rfl
@[simp] theorem EngineState.withBuffer_addrValue (b : Byte) (e : EngineState) :
    (e.withBuffer b).addrValue = e.addrValue := rfl

/-- A command's end with another byte in the read buffer of the engine it leaves, the output as before. -/
def CommandEnd.withBuffer (b : Byte) : CommandEnd → CommandEnd
  | .done e out => .done (e.withBuffer b) out
  | .raised e c => .raised (e.withBuffer b) c

@[simp] theorem CommandEnd.withBuffer_engineAfter (b : Byte) (r : CommandEnd) :
    (r.withBuffer b).engineAfter = r.engineAfter.withBuffer b := by cases r <;> rfl

/-- The frame of a command adds the same output whatever the buffer holds. -/
theorem State.finish_withBuffer (s : State) (run : RunState) (b : Byte) (r : CommandEnd) :
    State.finish { s with run := run } (r.withBuffer b) =
      { s.finish r with run := .engine (r.engineAfter.withBuffer b) } := by cases r <;> rfl

theorem EngineState.maskAddr_withBuffer (b : Byte) (e : EngineState) :
    (e.withBuffer b).maskAddr = e.maskAddr.withBuffer b := by
  rw [EngineState.maskAddr, EngineState.maskAddr, EngineState.withBuffer_addrValue]
  split_ifs <;> rfl

theorem EngineState.addrIncrement_withBuffer (b : Byte) (e : EngineState) (step : Byte) :
    (e.withBuffer b).addrIncrement step = (e.addrIncrement step).withBuffer b :=
  EngineState.maskAddr_withBuffer b
    { e with
      addrHi := if lowByteOverflowed e.addrLo (e.addrLo + step) then e.addrHi + 1 else e.addrHi
      addrLo := e.addrLo + step }

theorem EngineState.writeAddr_withBuffer (b : Byte) (e : EngineState) (imm8 : Byte) :
    (e.withBuffer b).writeAddr imm8 = (e.writeAddr imm8).withBuffer b := by
  rw [EngineState.writeAddr, EngineState.writeAddr, EngineState.withBuffer_awaitingHigh]
  split_ifs
  · exact congrArg EngineState.flipLatch (EngineState.maskAddr_withBuffer b { e with addrHi := imm8 })
  · exact congrArg EngineState.flipLatch (EngineState.maskAddr_withBuffer b { e with addrLo := imm8 })

/-- Every instruction but DATAR has the same effect whatever the buffer holds, and carries the buffer along. -/
theorem effectOf_withBuffer {i : Instr} (hi : i ≠ .datar) (b : Byte) (e : EngineState) :
    effectOf i (e.withBuffer b) = (effectOf i e).withBuffer b := by
  cases i with
  | datar => exact absurd rfl hi
  | addrw imm8 => exact congrArg (CommandEnd.done · none) (e.writeAddr_withBuffer b imm8)
  | addrinc1 => exact congrArg (CommandEnd.done · none) (e.addrIncrement_withBuffer b 1)
  | addrinc32 => exact congrArg (CommandEnd.done · none) (e.addrIncrement_withBuffer b 32)
  | mirror a =>
    rw [effectOf, effectOf, EngineState.withBuffer_record]
    split_ifs <;> rfl
  | _ => rfl

/-- Every instruction but DATAR keeps the buffer. -/
theorem effectOf_keeps_readBuffer {i : Instr} (hi : i ≠ .datar) (e : EngineState) :
    (effectOf i e).engineAfter.readBuffer = e.readBuffer := by
  have h : effectOf i e = (effectOf i e).withBuffer e.readBuffer := effectOf_withBuffer hi e.readBuffer e
  rw [h, CommandEnd.withBuffer_engineAfter, EngineState.withBuffer_readBuffer]

/-! ## The fold in numbers (44_vram_mirroring.md R160, R161) -/

/-- The mask 0x2FFF folds the mirror domain onto 0x2000-0x2FFF. -/
theorem vramIndex_toNat {a : Half} (hlo : 0x2000 ≤ a) (hhi : a ≤ 0x3EFF) : (vramIndex a).toNat = a.toNat % 0x1000 := by
  have hlo' : 0x2000 ≤ a.toNat := hlo
  have hhi' : a.toNat ≤ 0x3EFF := hhi
  have hhigh : (a.toNat &&& 0x2FFF) / 2 ^ 12 = 2 := by
    rw [Nat.and_div_two_pow]
    obtain h | h : a.toNat / 2 ^ 12 = 2 ∨ a.toNat / 2 ^ 12 = 3 := by omega
    · rw [h]; rfl
    · rw [h]; rfl
  have hlow : (a.toNat &&& 0x2FFF) % 2 ^ 12 = a.toNat % 0x1000 := by
    rw [Nat.and_mod_two_pow]
    exact (Nat.and_two_pow_sub_one_eq_mod _ 12).trans (Nat.mod_mod _ _)
  change (2 ^ 16 - 0x2000 + (a.toNat &&& 0x2FFF)) % 2 ^ 16 = a.toNat % 0x1000
  omega

/-- What step 4 of R160 subtracts moves a logical table onto its physical bank. -/
theorem foldOffset_add_bankOf (mode : Mirroring) {table : Nat} (h : table < 4) :
    (foldOffset mode table).toNat + bankOf mode table * 0x400 = table * 0x400 := by
  interval_cases table <;> cases mode <;> rfl

/-- The four steps of R160 compute the table of R161 on the whole domain of R162. -/
theorem mirrorIndex_toNat (mode : Mirroring) {a : Half} (hlo : 0x2000 ≤ a) (hhi : a ≤ 0x3EFF) :
    (mirrorIndex mode a).toNat = physicalIndex mode a := by
  have hv := vramIndex_toNat hlo hhi
  have ht : logicalTable (vramIndex a) = a.toNat / 0x400 % 4 := by
    rw [logicalTable, hv]
    omega
  have hfold := foldOffset_add_bankOf mode (Nat.mod_lt (a.toNat / 0x400) (show 0 < 4 by decide))
  rw [mirrorIndex, BitVec.toNat_sub, ht, hv, physicalIndex]
  omega

/-! ## What a DATAR that completes has fetched (45_data_port.md R180-R182) -/

/-- The byte DATAR fetches at an address: of CHR at the address itself, of NT at its folded index. -/
def EngineState.Fetches (e : EngineState) (a : Half) (b : Byte) : Prop :=
  (a ≤ 0x1FFF → e.record.characterData[a.toNat]? = some b) ∧
  (0x2000 ≤ a → b = e.nt.byteAt (physicalIndex e.record.mirroring a))

theorem regionOf_pattern {a : Half} (h : regionOf a = .pattern) : a ≤ 0x1FFF := by
  unfold regionOf at h
  split_ifs at h
  assumption

theorem regionOf_nametable {a : Half} (h : regionOf a = .nametable) : 0x2000 ≤ a ∧ a ≤ 0x2FFF := by
  unfold regionOf at h
  split_ifs at h with h1 h2
  exact ⟨by bv_omega, h2⟩

theorem EngineState.bufferedRead_done {e f : EngineState} {fetched : Option Byte} {c : Cause} {out : Option Output}
    (h : e.bufferedRead fetched c = .done f out) :
    fetched = some f.readBuffer ∧ out = some (.byte e.readBuffer) := by
  cases fetched with
  | none => cases h
  | some b =>
    cases h
    exact ⟨rfl, rfl⟩

/-- A read that completes returns the old byte and leaves the fetched one. -/
theorem EngineState.dataRead_done {e f : EngineState} {a : Half} {out : Option Output}
    (h : e.dataRead a = .done f out) : e.Fetches a f.readBuffer ∧ out = some (.byte e.readBuffer) := by
  unfold EngineState.dataRead at h
  cases hreg : regionOf a with
  | pattern =>
    rw [hreg] at h
    have ha := regionOf_pattern hreg
    obtain ⟨hb, hout⟩ := EngineState.bufferedRead_done h
    exact ⟨⟨fun _ => hb, fun h2 => by bv_omega⟩, hout⟩
  | nametable =>
    rw [hreg] at h
    obtain ⟨hlo, hhi⟩ := regionOf_nametable hreg
    obtain ⟨hb, hout⟩ := EngineState.bufferedRead_done h
    rw [mirrorIndex_toNat _ hlo (by bv_omega), Memory.read, Option.ite_none_right_eq_some] at hb
    exact ⟨⟨fun h1 => by bv_omega, fun _ => (Option.some.inj hb.2).symm⟩, hout⟩
  | aliasRange => rw [hreg] at h; cases h
  | palette => rw [hreg] at h; cases h
  | beyond => rw [hreg] at h; cases h

/-- The increment does not change what is fetched: it leaves the record and the nametable store alone. -/
theorem EngineState.fetches_addrIncrement (e : EngineState) (step : Byte) (a : Half) (b : Byte) :
    (e.addrIncrement step).Fetches a b ↔ e.Fetches a b := by simp [EngineState.Fetches]

end Sys2Proof.Machine
end

section
/-! The claims about the read buffer (10_state.md R28). -/

namespace Sys2Proof.Machine

open Sys2Proof.Claims

/-- Only a DATAR that completes changes the buffer. -/
theorem datar_completes_of_readBuffer_ne {i : Instr} {s t : State} {e f : EngineState} (hs : s.run = .engine e)
    (h : exec i s = .next t) (ht : t.run = .engine f) (hne : f.readBuffer ≠ e.readBuffer) :
    i = .datar ∧ f.fault = 0 := by
  obtain ⟨_, rfl, rfl⟩ | ⟨hf, rfl, rfl⟩ := exec_engineAfter_cases hs h ht
  · exact absurd rfl hne
  · by_cases hi : i = .datar
    · subst hi
      rw [effectOf] at hne ⊢
      obtain ⟨b, hd⟩ | ⟨c, hd, _⟩ := (e.addrIncrement (incrementStep e.ctrl)).dataRead_cases e.addrValue
      · simp [hd, hf]
      · simp [hd] at hne
    · exact absurd (effectOf_keeps_readBuffer hi e) hne

/-- A DATAR that completes outputs the old buffer and leaves the byte it fetched. -/
theorem datar_outputs_old_and_fetches {s t : State} {e f : EngineState} (hs : s.run = .engine e)
    (h : exec .datar s = .next t) (ht : t.run = .engine f) (hff : f.fault = 0) :
    t.outputs = s.outputs ++ [.byte e.readBuffer] ∧ e.Fetches (addrOf e) f.readBuffer := by
  obtain ⟨hf, rfl, rfl⟩ | ⟨_, rfl, rfl⟩ := exec_engineAfter_cases hs h ht
  · exact absurd hff hf
  · cases hd : effectOf .datar e with
    | done f out =>
      obtain ⟨hb, rfl⟩ := EngineState.dataRead_done hd
      exact ⟨by simp, (e.fetches_addrIncrement _ _ _).mp hb⟩
    | raised f c =>
      rw [hd] at hff
      exact absurd hff c.code_ne_zero

/-- An instruction other than DATAR answers alike whatever the buffer holds. -/
theorem exec_withBuffer {i : Instr} {s t : State} {e f : EngineState} (b : Byte) (hi : i ≠ .datar)
    (hs : s.run = .engine e) (h : exec i s = .next t) (ht : t.run = .engine f) :
    exec i { s with run := .engine { e with readBuffer := b } } =
      .next { t with run := .engine { f with readBuffer := b } } := by
  obtain ⟨hf, rfl, rfl⟩ | ⟨hf, rfl, rfl⟩ := exec_engineAfter_cases hs h ht
  · exact exec_faulted (by exact hf) i
  · calc exec i { s with run := .engine (e.withBuffer b) }
      _ = .next (State.finish { s with run := .engine (e.withBuffer b) } ((effectOf i e).withBuffer b)) := by
        rw [exec_engine (e := e.withBuffer b) rfl hf, effectOf_withBuffer hi]
      _ = .next { s.finish (effectOf i e) with run := .engine ((effectOf i e).engineAfter.withBuffer b) } := by
        rw [State.finish_withBuffer]

/-- LOAD constructs an engine whose buffer holds 0x00 (41_cartridge_loader.md R113). -/
theorem load_clears_readBuffer {raw : List Byte} {s t : State} {f : EngineState} (hs : s.run = .noEngine 0)
    (h : exec (.load raw) s = .next t) (ht : t.run = .engine f) : f.readBuffer = 0x00 := by
  obtain ⟨hf, _⟩ | ⟨_, _, rfl⟩ | ⟨_, _, ⟨_, _, rfl⟩ | ⟨r, _, rfl⟩⟩ := execLoad_cases h
  · exact absurd (by rw [hs]; rfl) hf
  · simp [hs] at ht
  · simp [hs] at ht
  · cases ht
    rfl

/-- Settles O54: from an engine an instruction changes nothing (a faulted run) or has its effect, and of the effects only
DATAR's touches the read buffer. -/
theorem readBufferIsDatarsAlone : Obligations.ReadBufferIsDatarsAlone := by
  refine ⟨fun i s t e f hs h ht hne => datar_completes_of_readBuffer_ne hs h ht hne, fun s t e f hs h ht hff => ?_,
    fun i s t e f b hi hs h ht => exec_withBuffer b hi hs h ht, fun raw s t f hs h ht => load_clears_readBuffer hs h ht⟩
  obtain ⟨hout, hchr, hnt⟩ := datar_outputs_old_and_fetches hs h ht hff
  exact ⟨hout, hchr, hnt⟩

end Sys2Proof.Machine
end

section
/-! SUPPORT. What the loader's claims rest on: the images `parse` accepts and the record it gives them, and the part of an
image its answer depends on (41_cartridge_loader.md R102-R112). -/

namespace Sys2Proof.Machine

/-! ## The record of an accepted image -/

/-- The record the header and the regions of an image say (41_cartridge_loader.md R107-R109). -/
def recordOf (raw : List Byte) : CartridgeRecord where
  programCode := slice raw (prgStart raw) (chrStart raw)
  characterData := slice raw (chrStart raw) (regionEnd raw)
  mapperId := headerMapperId raw
  mirroring := headerMirroring raw

/-- The inversion of `parse`: an image is accepted when it passes the four checks, and gives what its header says. -/
theorem parse_eq_ok_iff {raw : List Byte} {r : CartridgeRecord} :
    parse raw = .ok r ↔ raw.take 4 = magic ∧ Config.headerSize ≤ raw.length ∧ formatVersion raw = 0 ∧
      regionEnd raw ≤ raw.length ∧ r = recordOf raw := by
  have hsize : Config.headerSize = 16 := rfl
  unfold parse
  split_ifs with hmagic hshort hversion hend
  · refine iff_of_false nofun fun ⟨h4, h16, _⟩ => ?_
    obtain hlen | hne := hmagic
    · omega
    · exact hne h4
  · exact iff_of_false nofun fun ⟨_, h16, _⟩ => by omega
  · exact iff_of_false nofun fun ⟨_, _, h0, _⟩ => hversion h0
  · exact iff_of_false nofun fun ⟨_, _, _, hle, _⟩ => by omega
  · rw [not_or, not_not] at hmagic
    constructor
    · rintro ⟨⟩
      exact ⟨hmagic.2, Nat.le_of_not_lt hshort, not_not.mp hversion, Nat.le_of_not_lt hend, rfl⟩
    · rintro ⟨_, _, _, _, rfl⟩
      rfl

/-- An accepted image gives the record its header and regions say. -/
theorem eq_recordOf_of_parse {raw : List Byte} {r : CartridgeRecord} (h : parse raw = .ok r) : r = recordOf raw := by
  obtain ⟨_, _, _, _, hr⟩ := parse_eq_ok_iff.mp h
  exact hr

/-! ## The regions lie one behind the other (R106, R107) -/

/-- A slice, and after it what its end leaves. -/
theorem slice_append_drop (raw : List Byte) {i j : Nat} (h : i ≤ j) : slice raw i j ++ raw.drop j = raw.drop i := by
  have hdrop : raw.drop j = (raw.drop i).drop (j - i) := by rw [List.drop_drop, Nat.add_sub_cancel' h]
  rw [slice, hdrop, List.take_append_drop]

theorem prgStart_le_chrStart (raw : List Byte) : prgStart raw ≤ chrStart raw := Nat.le_add_right _ _
theorem chrStart_le_regionEnd (raw : List Byte) : chrStart raw ≤ regionEnd raw := Nat.le_add_right _ _

/-- From the program data's offset on: the program code, the character data, the trailing bytes. -/
theorem drop_prgStart_eq_regions (raw : List Byte) :
    raw.drop (prgStart raw) =
      (recordOf raw).programCode ++ (recordOf raw).characterData ++ raw.drop (regionEnd raw) := by
  rw [List.append_assoc]
  calc raw.drop (prgStart raw)
      _ = slice raw (prgStart raw) (chrStart raw) ++ raw.drop (chrStart raw) :=
        (slice_append_drop raw (prgStart_le_chrStart raw)).symm
      _ = slice raw (prgStart raw) (chrStart raw) ++
            (slice raw (chrStart raw) (regionEnd raw) ++ raw.drop (regionEnd raw)) := by
        rw [slice_append_drop raw (chrStart_le_regionEnd raw)]

/-- The trainer bit moves the program data to offset 528 (R106). -/
theorem prgStart_of_trainer {raw : List Byte} (h : (headerByte raw 6).getLsbD 2 = true) : prgStart raw = 528 := by
  rw [prgStart, if_pos h]
  rfl

/-! ## What the answer depends on: the header, the length, the bytes from the program data on -/

theorem headerByte_congr {raw raw' : List Byte} (hhead : raw'.take 16 = raw.take 16) {i : Nat} (hi : i < 16) :
    headerByte raw' i = headerByte raw i := by
  have htake (l : List Byte) : headerByte l i = headerByte (l.take 16) i := by simp [headerByte, hi]
  rw [htake raw', hhead, ← htake raw]

/-- A slice that begins at or after an offset depends on the bytes from that offset on alone. -/
theorem slice_congr {raw raw' : List Byte} {n i : Nat} (hdrop : raw'.drop n = raw.drop n) (h : n ≤ i) (j : Nat) :
    slice raw' i j = slice raw i j := by
  have hi (l : List Byte) : l.drop i = (l.drop n).drop (i - n) := by rw [List.drop_drop, Nat.add_sub_cancel' h]
  rw [slice, slice, hi raw', hdrop, ← hi raw]

/-- Two images of one length that agree on the header and from the program data on are parsed alike: what stands between
them, a trainer, is not looked at. -/
theorem parse_congr {raw raw' : List Byte} (hlen : raw'.length = raw.length) (hhead : raw'.take 16 = raw.take 16)
    (hdata : raw'.drop (prgStart raw) = raw.drop (prgStart raw)) : parse raw' = parse raw := by
  have hmagic : raw'.take 4 = raw.take 4 := by simpa [List.take_take] using congrArg (List.take 4) hhead
  have h4 := headerByte_congr hhead (show 4 < 16 by decide)
  have h5 := headerByte_congr hhead (show 5 < 16 by decide)
  have h6 := headerByte_congr hhead (show 6 < 16 by decide)
  have h7 := headerByte_congr hhead (show 7 < 16 by decide)
  have hversion : formatVersion raw' = formatVersion raw := by rw [formatVersion, h7, formatVersion]
  have hmapper : headerMapperId raw' = headerMapperId raw := by rw [headerMapperId, h6, h7, headerMapperId]
  have hmirroring : headerMirroring raw' = headerMirroring raw := by rw [headerMirroring, h6, headerMirroring]
  have hprg : prgStart raw' = prgStart raw := by rw [prgStart, h6, prgStart]
  have hchr : chrStart raw' = chrStart raw := by rw [chrStart, hprg, prgLen, h4, chrStart, prgLen]
  have hend : regionEnd raw' = regionEnd raw := by rw [regionEnd, hchr, chrLen, h5, regionEnd, chrLen]
  rw [parse, hlen, hmagic, hversion, hmapper, hmirroring, hprg, hchr, hend, slice_congr hdata le_rfl,
    slice_congr hdata (prgStart_le_chrStart raw), parse]

/-- A byte between the header and the program data can be changed freely (R106). -/
theorem parse_set_before_prgStart {raw : List Byte} {i : Nat} (hlo : 16 ≤ i) (hhi : i < prgStart raw) (v : Byte) :
    parse (raw.set i v) = parse raw :=
  parse_congr List.length_set (List.take_set_of_le hlo) (List.drop_set_of_lt hhi)

end Sys2Proof.Machine
end

section
/-! The claims about the loader (41_cartridge_loader.md R106, R108). -/

namespace Sys2Proof.Machine

/-- Settles O55: an accepted image's record is cut from it region by region, and the parser's answer does not depend on
what stands between the header and the program data. -/
theorem programDataFollowsTheTrainer : Obligations.ProgramDataFollowsTheTrainer := by
  intro raw r h
  obtain rfl := eq_recordOf_of_parse h
  refine ⟨⟨raw.drop (regionEnd raw), drop_prgStart_eq_regions raw⟩, fun htrainer i v hlo hhi => ?_⟩
  have hbefore : i < prgStart raw := by rwa [prgStart_of_trainer htrainer]
  rw [parse_set_before_prgStart hlo hbefore, h]

/-- Settles O41: the mirroring of the record is the one the header says. -/
theorem mirroringFromTwoHeaderBits : Obligations.MirroringFromTwoHeaderBits := by
  intro raw r h
  obtain rfl := eq_recordOf_of_parse h
  rfl

end Sys2Proof.Machine
end

section
/-! SUPPORT. What the address port's claims rest on: its value and its mask in numbers, the two writers of the port in
closed form, and the words of the port's commands (42_address_port.md R130-R136). -/

namespace Sys2Proof.Machine

open Sys2Proof.Claims

/-! ## The value of the port and its mask (R130, R132) -/

/-- Two halves as one number. -/
theorem halves_toNat (hi lo : Byte) : (hi ++ lo : Half).toNat = hi.toNat * 256 + lo.toNat := by
  rw [BitVec.toNat_append, ← Nat.shiftLeft_add_eq_or_of_lt lo.isLt, Nat.shiftLeft_eq]

/-- A high half of 6 bits makes an address of 14 bits (10_state.md R27). -/
theorem halves_le_of_high_le {hi : Byte} (h : hi ≤ 0x3F) (lo : Byte) : (hi ++ lo : Half) ≤ 0x3FFF := by
  have hhi : hi.toNat ≤ 0x3F := h
  have hlo : lo.toNat < 256 := lo.isLt
  change (hi ++ lo : Half).toNat ≤ 0x3FFF
  rw [halves_toNat]
  omega

/-- Masking does not change what is in range already. -/
theorem and_0x3FFF_of_le {v : Half} (h : v ≤ 0x3FFF) : v &&& 0x3FFF = v := by
  have hv : v.toNat ≤ 0x3FFF := h
  apply BitVec.eq_of_toNat_eq
  calc (v &&& 0x3FFF).toNat
      _ = v.toNat % 2 ^ 14 := Nat.and_two_pow_sub_one_eq_mod _ 14
      _ = v.toNat := by omega

/-- So masking only above 0x3FFF, as the source says it, is masking always. -/
theorem mask_above_0x3FFF (v : Half) : (if v > 0x3FFF then v &&& 0x3FFF else v) = v &&& 0x3FFF := by
  split_ifs with h
  · rfl
  · exact (and_0x3FFF_of_le (BitVec.not_lt.mp h)).symm

/-- The claims' re-split is the model's. -/
theorem EngineState.setAddr_eq_withAddr (e : EngineState) (v : Half) : e.setAddr v = withAddr e v := by
  rw [EngineState.setAddr, ← BitVec.setWidth_ushiftRight_eq_extractLsb, ← BitVec.setWidth_eq_extractLsb' (by decide)]

/-- Splitting the port's value gives back its halves. -/
theorem EngineState.setAddr_addrValue (e : EngineState) : e.setAddr e.addrValue = e := by
  have hhi : e.addrValue.extractLsb' 8 8 = e.addrHi := BitVec.extractLsb'_append_eq_left
  have hlo : e.addrValue.extractLsb' 0 8 = e.addrLo := BitVec.extractLsb'_append_eq_right
  rw [EngineState.setAddr, hhi, hlo]

theorem EngineState.maskAddr_eq (e : EngineState) : e.maskAddr = withAddr e (addrOf e &&& 0x3FFF) := by
  change e.maskAddr = withAddr e (e.addrValue &&& 0x3FFF)
  rw [← EngineState.setAddr_eq_withAddr, EngineState.maskAddr]
  split_ifs with h
  · rfl
  · rw [and_0x3FFF_of_le (BitVec.not_lt.mp h), EngineState.setAddr_addrValue]

/-! ## The writers of the port -/

/-- `write(byte)` (R130): the written value, masked, and the latch flipped. -/
theorem EngineState.writeAddr_eq (e : EngineState) (b : Byte) :
    e.writeAddr b =
      { withAddr e ((if e.awaitingHigh then b ++ e.addrLo else e.addrHi ++ b) &&& 0x3FFF) with
        awaitingHigh := !e.awaitingHigh } := by
  rw [EngineState.writeAddr, EngineState.maskAddr_eq]
  split_ifs <;> rfl

/-- `AddrIncrement(step)` (R132): the sum of the halves with the carry by comparison, masked. -/
theorem EngineState.addrIncrement_eq (e : EngineState) (step : Byte) :
    e.addrIncrement step =
      withAddr e (((if e.addrLo + step < e.addrLo then e.addrHi + 1 else e.addrHi) ++ (e.addrLo + step)) &&& 0x3FFF) := by
  simp only [EngineState.addrIncrement, EngineState.maskAddr_eq, lowByteOverflowed, decide_eq_true_eq]

/-! ## An instruction that completes in an engine -/

/-- One without output leaves the engine of its effect and changes nothing else. -/
theorem exec_of_effectOf_done {i : Instr} {s : State} {e f : EngineState} (hs : s.run = .engine e) (hf : e.fault = 0)
    (hi : effectOf i e = .done f none) : exec i s = .next { s with run := .engine f } := by
  rw [exec_engine hs hf, hi, State.finish_done, addOutput_none]

/-- One that leaves the engine alone adds its output and changes nothing else. -/
theorem exec_of_effectOf_output {i : Instr} {s : State} {e : EngineState} {o : Output} (hs : s.run = .engine e)
    (hf : e.fault = 0) (hi : effectOf i e = .done e (some o)) :
    exec i s = .next { s with outputs := s.outputs ++ [o] } := by
  rw [exec_engine hs hf, hi, State.finish_done, addOutput_some, ← hs]

/-- ADDRW in an engine (R130). -/
theorem exec_addrw {s : State} {e : EngineState} (hs : s.run = .engine e) (hf : e.fault = 0) (b : Byte) :
    exec (.addrw b) s =
      .next { s with
        run := .engine { withAddr e ((if e.awaitingHigh then b ++ e.addrLo else e.addrHi ++ b) &&& 0x3FFF) with
          awaitingHigh := !e.awaitingHigh } } :=
  exec_of_effectOf_done hs hf (by rw [effectOf, EngineState.writeAddr_eq])

/-- LATRST in an engine (R135). -/
theorem exec_latrst {s : State} {e : EngineState} (hs : s.run = .engine e) (hf : e.fault = 0) :
    exec .latrst s = .next { s with run := .engine { e with awaitingHigh := true } } :=
  exec_of_effectOf_done hs hf rfl

/-! ## The word of ADDRW (30_encoding.md R63, R64) -/

/-- ADDRW's word is its operand under the pattern of its row. -/
theorem encodeWord_addrw (b : Byte) : encodeWord (.addrw b) = 0x200000 ||| b.setWidth 24 := by
  revert b; decide

theorem decode_encodeWord_addrw (b : Byte) (raw : List Byte) : decode (encodeWord (.addrw b)) raw = .ok (.addrw b) := by
  simp [decode, encodeWord, decodeB]

theorem decode_addrw (b : Byte) (raw : List Byte) : decode (0x200000 ||| b.setWidth 24) raw = .ok (.addrw b) := by
  rw [← encodeWord_addrw, decode_encodeWord_addrw]

end Sys2Proof.Machine
end

section
/-! The claims about the address port (42_address_port.md sections 1 to 3). -/

namespace Sys2Proof.Machine

open Sys2Proof.Claims

/-- Settles O18: the model's write is the written value masked always, and so is the source's, masked above 0x3FFF. -/
theorem addrwWritesTheLatchedHalf : Obligations.AddrwWritesTheLatchedHalf := by
  intro b s e hs hf v masked
  have hmasked : masked = v &&& 0x3FFF := mask_above_0x3FFF v
  refine ⟨decode_addrw b [], ?_⟩
  rw [hmasked]
  exact exec_addrw hs hf b

/-- Settles O20, for each step by the increment's closed form and the mask's. -/
theorem addrincRunsThePrimitive : Obligations.AddrincRunsThePrimitive := by
  intro s e hs hf after
  have hafter (step : Byte) : e.addrIncrement step = after step := by
    rw [EngineState.addrIncrement_eq, ← mask_above_0x3FFF]
  exact ⟨exec_of_effectOf_done hs hf (by rw [effectOf, hafter]), exec_of_effectOf_done hs hf (by rw [effectOf, hafter])⟩

/-- Settles O22: LATRST, LATRST from what it leaves, and ADDRW with the latch set. -/
theorem latrstSetsTheLatch : Obligations.LatrstSetsTheLatch := by
  intro s e hs hf
  exact ⟨by decide, exec_latrst hs hf, exec_latrst (e := { e with awaitingHigh := true }) rfl hf,
    fun b => exec_addrw (e := { e with awaitingHigh := true }) rfl hf b⟩

/-- Settles O23: ADDRR leaves the engine alone, and two halves of 6 and 8 bits make 14 bits. -/
theorem addrrReturnsTheValue : Obligations.AddrrReturnsTheValue := by
  intro s e hs hf
  exact ⟨by decide, exec_of_effectOf_output hs hf rfl, fun hhi => halves_le_of_high_le hhi e.addrLo⟩

end Sys2Proof.Machine
end

section
/-! SUPPORT. What the fold's claims rest on: MIRROR's effect on an address of its domain, and the folded index as the
table gives it (44_vram_mirroring.md R160-R164). -/

namespace Sys2Proof.Machine

open Sys2Proof.Claims

/-- For an address in its domain MIRROR leaves the engine alone and returns the folded index (R162, R164). -/
theorem effectOf_mirror_of_mem_domain {a : Half} (hlo : 0x2000 ≤ a) (hhi : a ≤ 0x3EFF) (e : EngineState) :
    effectOf (.mirror a) e = .done e (some (.half (mirrorIndex e.record.mirroring a))) := by
  have hdomain : inMirrorDomain a = true := by
    rw [inMirrorDomain, decide_eq_true hlo, decide_eq_true hhi, Bool.and_self]
  rw [effectOf, if_pos hdomain]

/-- The folded index is the physical index of the table (R161). -/
theorem mirrorIndex_eq_ofNat_physicalIndex (mode : Mirroring) {a : Half} (hlo : 0x2000 ≤ a) (hhi : a ≤ 0x3EFF) :
    mirrorIndex mode a = BitVec.ofNat 16 (physicalIndex mode a) := by
  rw [← mirrorIndex_toNat mode hlo hhi, BitVec.ofNat_toNat, BitVec.setWidth_eq]

end Sys2Proof.Machine
end

section
/-! The claims about the fold (44_vram_mirroring.md sections 1 and 2). -/

namespace Sys2Proof.Machine

/-- Settles O27: 0x2000-0x2FFF lies in the domain of MIRROR, and there the fold is the table. -/
theorem mirrorFollowsTheFoldTable : Obligations.MirrorFollowsTheFoldTable := by
  intro a s e hs hf hlo hhi
  have hdomain : a ≤ 0x3EFF := BitVec.le_trans hhi (by decide)
  refine exec_of_effectOf_output hs hf ?_
  rw [effectOf_mirror_of_mem_domain hlo hdomain, mirrorIndex_eq_ofNat_physicalIndex _ hlo hdomain]

end Sys2Proof.Machine
end

section
/-! SUPPORT. What the encoding's claims rest on: the decoder and the encoder as inverses, the words of the commands
under the patterns of their rows, and the fields of a word as the spec cuts them (30_encoding.md R60-R67). -/

namespace Sys2Proof

open Sys2Proof.Machine

/-! ## The encoder's words -/

/-- `imm16` is bits 15:0 under an opcode without further bits (R61). -/
theorem mkWord_eq_or (op : BitVec 4) (o : Half) : mkWord op o = mkWord op 0 ||| o.setWidth 24 := by
  have ho : o.toNat < 2 ^ 16 := o.isLt
  apply BitVec.eq_of_toNat_eq
  rw [BitVec.toNat_or, mkWord_toNat, mkWord_toNat, BitVec.toNat_setWidth_of_le (by decide),
    show op.toNat * 2 ^ 20 + (0 : Half).toNat = (op.toNat * 2 ^ 4) <<< 16 by rw [Nat.shiftLeft_eq]; simp; ring,
    ← Nat.shiftLeft_add_eq_or_of_lt ho, Nat.shiftLeft_eq]
  ring

/-- `imm8` is bits 7:0 under an opcode without further bits (R61). -/
theorem mkWord_opndB_eq_or (op : BitVec 4) (b : Byte) : mkWord op (opndB b) = mkWord op 0 ||| b.setWidth 24 := by
  have hwidth : (opndB b).setWidth 24 = b.setWidth 24 := by
    apply BitVec.eq_of_toNat_eq
    rw [BitVec.toNat_setWidth_of_le (by decide), opndB_toNat, BitVec.toNat_setWidth_of_le (by decide)]
  rw [mkWord_eq_or, hwidth]

/-! ## Decoding what was encoded -/

@[simp] theorem decodeN_zero (i : Instr) : decodeN 0#16 i = .ok i := rfl

@[simp] theorem decodeB_opndB (b : Byte) (f : Byte → Except IllegalWord Instr) : decodeB (opndB b) f = f b := by
  rw [decodeB, if_pos (opndHigh_opndB b), opndImm8_opndB]

/-- Every instruction's word decodes to it, given the image that belongs to it. -/
theorem decode_encodeWord (i : Instr) (raw : List Byte) (hraw : ∀ raw', i = .load raw' → raw' = raw) :
    decode (encodeWord i) raw = .ok i := by
  cases i with
  | load raw' => simp [decode, encodeWord, hraw raw' rfl]
  | addrinc1 => simp [decode, encodeWord, decodeStep]
  | addrinc32 => simp [decode, encodeWord, decodeStep]
  | _ => simp [decode, encodeWord]

/-- The command of an instruction stands for the instruction's word. -/
theorem toWord_encode (i : Instr) : (encode i).toWord = encodeWord i := by cases i <;> rfl

/-- Every instruction's command decodes to it (R67). -/
theorem decodeCmd_encode (i : Instr) : decodeCmd (encode i) = .ok i := by
  rw [decodeCmd, toWord_encode]
  exact decode_encodeWord i _ (by rintro raw rfl; rfl)

/-- Only LOAD's word has LOAD's opcode, so every instruction's command is one a run can contain. -/
theorem encode_wellFormed (i : Instr) : (encode i).wellFormed = true := by
  cases i with
  | load raw => rfl
  | _ =>
    refine bne_iff_ne.mpr fun h => ?_
    have hop := congrArg wordOp h
    simp only [encodeWord, wordOp_mkWord] at hop
    exact absurd hop (by decide)

/-! ## Encoding what was decoded -/

theorem decodeN_eq_ok {o : Half} {i j : Instr} (h : decodeN o i = .ok j) : o = 0 ∧ i = j := by
  unfold decodeN at h
  split_ifs at h with ho
  exact ⟨ho, Except.ok.inj h⟩

theorem decodeB_eq_ok {o : Half} {f : Byte → Except IllegalWord Instr} {i : Instr} (h : decodeB o f = .ok i) :
    ∃ b, o = opndB b ∧ f b = .ok i := by
  unfold decodeB at h
  split_ifs at h with ho
  exact ⟨opndImm8 o, (opndB_fields o ho).symm, h⟩

theorem decodeStep_eq_ok {b : Byte} {i : Instr} (h : decodeStep b = .ok i) :
    (b = 1 ∧ i = .addrinc1) ∨ (b = 32 ∧ i = .addrinc32) := by
  unfold decodeStep at h
  split_ifs at h with h1 h2
  · exact .inl ⟨h1, (Except.ok.inj h).symm⟩
  · exact .inr ⟨h2, (Except.ok.inj h).symm⟩

/-- A word with its reserved bits clear is its opcode and its operand. -/
theorem eq_mkWord_of_fields {w : CmdWord} {op : BitVec 4} {o : Half} (hr : wordRsv w = 0) (hop : wordOp w = op)
    (ho : wordOpnd w = o) : w = mkWord op o := by
  rw [← hop, ← ho, mkWord_fields w hr]

/-- The converse of `decode_encodeWord`: the decoder admits no second word of an instruction. -/
theorem encodeWord_of_decode {w : CmdWord} {raw : List Byte} {i : Instr} (h : decode w raw = .ok i) :
    encodeWord i = w := by
  unfold decode at h
  split_ifs at h with hrsv
  have hrsv : wordRsv w = 0 := not_not.mp hrsv
  have hword {op : BitVec 4} {o : Half} (hop : (wordOp w).toNat = op.toNat) (ho : wordOpnd w = o) : mkWord op o = w :=
    (eq_mkWord_of_fields hrsv (BitVec.eq_of_toNat_eq hop) ho).symm
  split at h
  case h_1 hop | h_2 hop | h_3 hop =>
    obtain ⟨b, ho, ⟨⟩⟩ := decodeB_eq_ok h
    exact hword hop ho
  case h_4 hop | h_5 hop | h_6 hop | h_7 hop | h_10 hop =>
    obtain ⟨ho, rfl⟩ := decodeN_eq_ok h
    exact hword hop ho
  case h_8 hop =>
    obtain ⟨b, ho, hb⟩ := decodeB_eq_ok h
    obtain ⟨rfl, rfl⟩ | ⟨rfl, rfl⟩ := decodeStep_eq_ok hb
    · exact hword hop ho
    · exact hword hop ho
  case h_9 hop =>
    obtain rfl := Except.ok.inj h
    exact hword hop rfl
  case h_11 => cases h

/-! ## The match and mask table (R64) -/

/-- Two rows that match one word agree where both masks look; no two rows of the table do. -/
theorem tableRow_unique {w : CmdWord} {r₁ r₂ : TableRow} (h₁ : r₁ ∈ opcodeTable) (h₂ : r₂ ∈ opcodeTable)
    (ha₁ : r₁.admits w = true) (ha₂ : r₂.admits w = true) : r₁ = r₂ := by
  have hagree : r₁.pattern &&& r₂.mask = r₂.pattern &&& r₁.mask := by
    rw [← eq_of_beq ha₁, ← eq_of_beq ha₂, BitVec.and_assoc, BitVec.and_assoc, BitVec.and_comm r₁.mask]
  have hrows : ∀ r ∈ opcodeTable, ∀ r' ∈ opcodeTable, r.pattern &&& r'.mask = r'.pattern &&& r.mask → r = r' := by
    decide
  exact hrows r₁ h₁ r₂ h₂ hagree

theorem tableRow_mem_opcodeTable (i : Instr) : i.tableRow ∈ opcodeTable := by
  cases i <;> simp [opcodeTable, Instr.tableRow]

/-- An instruction's row admits its word. -/
theorem tableRow_admits_encodeWord (i : Instr) : i.tableRow.admits (encodeWord i) = true := by
  cases i with
  | ctrlw b => exact Laws.MatchMask.ctrlw b
  | addrw b => exact Laws.MatchMask.addrw b
  | dataw b => exact Laws.MatchMask.dataw b
  | datar => exact Laws.MatchMask.datar
  | latrst => exact Laws.MatchMask.latrst
  | addrr => exact Laws.MatchMask.addrr
  | incq => exact Laws.MatchMask.incq
  | addrinc1 => exact Laws.MatchMask.addrinc1
  | addrinc32 => exact Laws.MatchMask.addrinc32
  | mirror a => exact Laws.MatchMask.mirror a
  | load raw => exact Laws.MatchMask.load raw

/-- The row of the instruction a word decodes to admits the word. -/
theorem tableRow_admits_of_decode {w : CmdWord} {raw : List Byte} {i : Instr} (h : decode w raw = .ok i) :
    i.tableRow.admits w = true := by
  rw [← encodeWord_of_decode h]
  exact tableRow_admits_encodeWord i

/-- A word is its high bits and its low ones. -/
theorem eq_high_or_low {n : Nat} (w : BitVec n) (k : Nat) :
    w = (w &&& (BitVec.allOnes n <<< k)) ||| (w.setWidth k).setWidth n := by
  ext i hi
  by_cases hik : i < k
  · simp [hi, hik]
  · simp [hik]

/-- The words a row with a byte operand admits. -/
theorem encodeWord_of_admits {op : BitVec 4} {w : CmdWord} (h : w &&& 0xFFFF00 = mkWord op 0) :
    mkWord op (opndB (w.setWidth 8)) = w := by
  rw [mkWord_opndB_eq_or, ← h]
  exact (eq_high_or_low w 8).symm

/-- Every word a row of the table admits is the word of an instruction of that row. -/
theorem exists_encodeWord_of_admits {w : CmdWord} {r : TableRow} (hr : r ∈ opcodeTable) (h : r.admits w = true)
    (raw : List Byte) : ∃ i, encodeWord i = w ∧ ∀ raw', i = .load raw' → raw' = raw := by
  have hw : w &&& r.mask = r.pattern := eq_of_beq h
  have hall : w &&& 0xFFFFFF = w := BitVec.and_allOnes
  simp only [opcodeTable, List.mem_cons, List.not_mem_nil, or_false] at hr
  obtain rfl | rfl | rfl | rfl | rfl | rfl | rfl | rfl | rfl | rfl | rfl := hr
  · exact ⟨.ctrlw (w.setWidth 8), encodeWord_of_admits hw, by simp⟩
  · exact ⟨.addrw (w.setWidth 8), encodeWord_of_admits hw, by simp⟩
  · exact ⟨.dataw (w.setWidth 8), encodeWord_of_admits hw, by simp⟩
  · exact ⟨.datar, hw.symm.trans hall, by simp⟩
  · exact ⟨.latrst, hw.symm.trans hall, by simp⟩
  · exact ⟨.addrr, hw.symm.trans hall, by simp⟩
  · exact ⟨.incq, hw.symm.trans hall, by simp⟩
  · exact ⟨.addrinc1, hw.symm.trans hall, by simp⟩
  · exact ⟨.addrinc32, hw.symm.trans hall, by simp⟩
  · refine ⟨.mirror (w.setWidth 16), ?_, by simp⟩
    rw [encodeWord, mkWord_eq_or, show mkWord 0x9 0 = w &&& 0xFF0000 from hw.symm]
    exact (eq_high_or_low w 16).symm
  · exact ⟨.load raw, hw.symm.trans hall, by simp⟩

/-- The decoder and the table accept the same words. -/
theorem decode_ok_iff_admits (w : CmdWord) (raw : List Byte) :
    (∃ i, decode w raw = .ok i) ↔ ∃ r ∈ opcodeTable, r.admits w = true := by
  constructor
  · rintro ⟨i, h⟩
    exact ⟨i.tableRow, tableRow_mem_opcodeTable i, tableRow_admits_of_decode h⟩
  · rintro ⟨r, hr, h⟩
    obtain ⟨i, rfl, hraw⟩ := exists_encodeWord_of_admits hr h raw
    exact ⟨i, decode_encodeWord i raw hraw⟩

/-- A word's byte operand is its bits 7:0 (R61). -/
theorem decode_ctrlw (b : Byte) (raw : List Byte) : decode (0x100000 ||| b.setWidth 24) raw = .ok (.ctrlw b) := by
  rw [← decode_encodeWord (.ctrlw b) raw (by simp), encodeWord, mkWord_opndB_eq_or]
  rfl

theorem decode_dataw (b : Byte) (raw : List Byte) : decode (0x300000 ||| b.setWidth 24) raw = .ok (.dataw b) := by
  rw [← decode_encodeWord (.dataw b) raw (by simp), encodeWord, mkWord_opndB_eq_or]
  rfl

/-- A word's 16-bit operand is its bits 15:0 (R61). -/
theorem decode_mirror (a : Half) (raw : List Byte) : decode (0x900000 ||| a.setWidth 24) raw = .ok (.mirror a) := by
  rw [← decode_encodeWord (.mirror a) raw (by simp), encodeWord, mkWord_eq_or]
  rfl

/-! ## The illegal words (R65) -/

/-- A masked field of a word holds `v` exactly when its bits are `v`. -/
theorem and_mask_eq_iff {s k : Nat} (h : s + k ≤ 24) (w : CmdWord) (v : BitVec k) :
    w &&& ((BitVec.allOnes k).setWidth 24 <<< s) = v.setWidth 24 <<< s ↔ w.extractLsb' s k = v := by
  have hfield (v : BitVec k) : (v.setWidth 24 <<< s).extractLsb' s k = v := by
    ext i hi
    simp [hi, show s + i < 24 by omega]
  have hmask : w &&& ((BitVec.allOnes k).setWidth 24 <<< s) = (w.extractLsb' s k).setWidth 24 <<< s := by
    ext i hi
    by_cases his : i < s
    · simp [his]
    · by_cases hik : i - s < k
      · simp [hi, his, hik, show s + (i - s) = i by omega]
      · simp [his, hik]
  rw [hmask]
  constructor
  · intro h'
    rw [← hfield (w.extractLsb' s k), h', hfield]
  · rintro rfl
    rfl

theorem wordRsv_eq_zero_iff (w : CmdWord) : w &&& 0x0F0000 = 0 ↔ wordRsv w = 0 :=
  and_mask_eq_iff (s := 16) (k := 4) (by decide) w 0

theorem wordOpnd_eq_zero_iff (w : CmdWord) : w &&& 0x00FFFF = 0 ↔ wordOpnd w = 0 :=
  and_mask_eq_iff (s := 0) (k := 16) (by decide) w 0

theorem opndHigh_eq_zero_iff (w : CmdWord) : w &&& 0x00FF00 = 0 ↔ opndHigh (wordOpnd w) = 0 := by
  rw [opndHigh, wordOpnd, BitVec.extractLsb'_extractLsb'_of_le (by decide)]
  exact and_mask_eq_iff (s := 8) (k := 8) (by decide) w 0

theorem opndImm8_eq_iff (w : CmdWord) (b : Byte) : w &&& 0x0000FF = b.setWidth 24 ↔ opndImm8 (wordOpnd w) = b := by
  rw [opndImm8, wordOpnd, BitVec.extractLsb'_extractLsb'_of_le (by decide)]
  rw [← and_mask_eq_iff (by decide) w b, BitVec.shiftLeft_zero, BitVec.shiftLeft_zero]
  rfl

theorem wordOp_toNat (w : CmdWord) : (wordOp w).toNat = (w >>> 20).toNat := by
  have hw : w.toNat < 2 ^ 24 := w.isLt
  simp only [wordOp, BitVec.extractLsb'_toNat, BitVec.toNat_ushiftRight, Nat.shiftRight_eq_div_pow]
  omega

theorem decodeN_error_iff (o : Half) (i : Instr) : (∃ why, decodeN o i = .error why) ↔ o ≠ 0 := by
  unfold decodeN
  split_ifs with ho
  · exact iff_of_false (by simp) (not_not.mpr ho)
  · exact iff_of_true ⟨_, rfl⟩ ho

/-- With its high byte clear a shape-B operand is illegal only by its `imm8`. -/
theorem decodeB_error_iff (o : Half) (f : Byte → Except IllegalWord Instr) :
    (∃ why, decodeB o f = .error why) ↔ opndHigh o ≠ 0 ∨ ∃ why, f (opndImm8 o) = .error why := by
  unfold decodeB
  split_ifs with ho
  · exact (or_iff_right (not_not.mpr ho)).symm
  · exact iff_of_true ⟨_, rfl⟩ (.inl ho)

theorem decodeStep_error_iff (b : Byte) : (∃ why, decodeStep b = .error why) ↔ b ≠ 1 ∧ b ≠ 32 := by
  unfold decodeStep
  split_ifs with h1 h2
  · exact iff_of_false (by simp) fun h => h.1 h1
  · exact iff_of_false (by simp) fun h => h.2 h2
  · exact iff_of_true ⟨_, rfl⟩ ⟨h1, h2⟩

/-- The five cases of R65, over the fields the decoder cuts. -/
theorem decode_error_iff (w : CmdWord) (raw : List Byte) :
    (∃ why, decode w raw = .error why) ↔
      ((wordOp w).toNat = 0x0 ∨ 0xB ≤ (wordOp w).toNat) ∨ wordRsv w ≠ 0 ∨
      (((wordOp w).toNat = 0x4 ∨ (wordOp w).toNat = 0x5 ∨ (wordOp w).toNat = 0x6 ∨ (wordOp w).toNat = 0x7 ∨
        (wordOp w).toNat = 0xA) ∧ wordOpnd w ≠ 0) ∨
      (((wordOp w).toNat = 0x1 ∨ (wordOp w).toNat = 0x2 ∨ (wordOp w).toNat = 0x3 ∨ (wordOp w).toNat = 0x8) ∧
        opndHigh (wordOpnd w) ≠ 0) ∨
      ((wordOp w).toNat = 0x8 ∧ opndImm8 (wordOpnd w) ≠ 1 ∧ opndImm8 (wordOpnd w) ≠ 32) := by
  have hop : (wordOp w).toNat < 16 := (wordOp w).isLt
  unfold decode
  split_ifs with hrsv
  · exact iff_of_true ⟨_, rfl⟩ (.inr (.inl hrsv))
  · generalize hk : (wordOp w).toNat = op at hop ⊢
    interval_cases op <;> simp [not_not.mp hrsv, decodeN_error_iff, decodeB_error_iff, decodeStep_error_iff]

end Sys2Proof
end

section
/-! The claims about the encoding (30_encoding.md sections 1 to 3). -/

namespace Sys2Proof

open Sys2Proof.Machine Sys2Proof.Claims

/-- Settles O1, word by word. -/
theorem wordsOfTheSpecDecode : Obligations.WordsOfTheSpecDecode := by
  refine ⟨by decide, by decide, by decide, by decide, by decide, by decide, by decide, by decide, by decide, by decide,
    fun raw => ?_⟩
  exact decode_encodeWord (.load raw) raw fun _ h => (Instr.load.inj h).symm

/-- Settles O2: the decoder undoes the encoder, and only LOAD has LOAD's word. -/
theorem decodeOfEncodeIsTheInstruction : Obligations.DecodeOfEncodeIsTheInstruction :=
  fun i => ⟨decodeCmd_encode i, encode_wellFormed i⟩

/-- Settles O3, branch by branch of the decoder. -/
theorem encodeOfDecodeIsTheWord : Obligations.EncodeOfDecodeIsTheWord :=
  fun _ _ _ h => encodeWord_of_decode h

/-- Settles O4: a row of the table admits exactly the words of its instructions. -/
theorem decodeFollowsTheMatchMaskTable : Obligations.DecodeFollowsTheMatchMaskTable := by
  intro w raw b a
  exact ⟨decode_ok_iff_admits w raw, fun i h => tableRow_admits_of_decode h,
    fun r₁ h₁ r₂ h₂ ha₁ ha₂ => tableRow_unique h₁ h₂ ha₁ ha₂,
    decode_ctrlw b raw, decode_addrw b raw, decode_dataw b raw, decode_mirror a raw⟩

/-- Settles O5: the decoder's errors, and each masked field of the word as the field the decoder cuts. -/
theorem illegalWordsAreThoseListed : Obligations.IllegalWordsAreThoseListed := by
  intro w raw op rsv opnd imm8 high
  have hop : (wordOp w).toNat = op := wordOp_toNat w
  have hrsv : rsv = 0 ↔ wordRsv w = 0 := wordRsv_eq_zero_iff w
  have hopnd : opnd = 0 ↔ wordOpnd w = 0 := wordOpnd_eq_zero_iff w
  have hhigh : high = 0 ↔ opndHigh (wordOpnd w) = 0 := opndHigh_eq_zero_iff w
  have hone : imm8 = 1 ↔ opndImm8 (wordOpnd w) = 1 := opndImm8_eq_iff w 1
  have h32 : imm8 = 32 ↔ opndImm8 (wordOpnd w) = 32 := opndImm8_eq_iff w 32
  rw [decode_error_iff, hop, ne_eq rsv, hrsv, ne_eq opnd, hopnd, ne_eq high, hhigh, ne_eq imm8, hone, ne_eq imm8, h32]

end Sys2Proof
end

section
/-! SUPPORT. What the assembler's claims rest on: the commands of one line, and of a line before others
(30_encoding.md R69, R70). -/

namespace Sys2Proof.Machine

open Sys2Proof.Claims

theorem assemble_singleton (l : AsmLine) :
    assemble [l] = if l.wellFormed then some ((expandLine l).map encode) else none := by
  rw [assemble, assembleLine]
  split_ifs <;> simp [assemble]

/-- A program is its first line's commands, then those of the others. -/
theorem assemble_cons (l : AsmLine) (ls : List AsmLine) :
    assemble (l :: ls) = (assemble [l]).bind fun cs => (assemble ls).map (cs ++ ·) := by
  rw [assemble_singleton, assemble, assembleLine]
  split_ifs
  · cases assemble ls <;> rfl
  · rfl

/-- What is left to show of a line is its range and its commands, which decode to the instructions they encode. -/
theorem lineIs_of_expandLine {l : AsmLine} {inRange : Prop} {cmds : List Cmd} {is : List Instr}
    (hwf : l.wellFormed = true ↔ inRange) (his : inRange → expandLine l = is) (hcmds : inRange → is.map encode = cmds) :
    lineIs l inRange cmds is := by
  refine ⟨fun h => ?_, fun h => ?_⟩
  · rw [assemble_singleton, if_pos (hwf.mpr h), his h, hcmds h]
    refine ⟨rfl, ?_⟩
    rw [← hcmds h, List.map_map]
    exact List.map_congr_left fun i _ => decodeCmd_encode i
  · rw [assemble_singleton, if_neg fun hl => h (hwf.mp hl)]

/-- A line without range. -/
theorem lineIs_of_wellFormed {l : AsmLine} {cmds : List Cmd} {is : List Instr} (hwf : l.wellFormed = true)
    (his : expandLine l = is) (hcmds : is.map encode = cmds) : lineIs l True cmds is :=
  lineIs_of_expandLine (iff_of_true hwf trivial) (fun _ => his) fun _ => hcmds

/-- The word of a byte operand given as a number. -/
theorem mkWord_opndB_ofNat (op : BitVec 4) {n : Nat} (h : n ≤ 0xFF) :
    mkWord op (opndB (BitVec.ofNat 8 n)) = BitVec.ofNat 24 (op.toNat * 2 ^ 20 + n) := by
  have hop : op.toNat < 2 ^ 4 := op.isLt
  apply BitVec.eq_of_toNat_eq
  rw [mkWord_toNat, opndB_toNat, BitVec.toNat_ofNat, BitVec.toNat_ofNat]
  omega

/-- The word of a 16-bit operand given as a number. -/
theorem mkWord_ofNat (op : BitVec 4) {n : Nat} (h : n ≤ 0xFFFF) :
    mkWord op (BitVec.ofNat 16 n) = BitVec.ofNat 24 (op.toNat * 2 ^ 20 + n) := by
  have hop : op.toNat < 2 ^ 4 := op.isLt
  apply BitVec.eq_of_toNat_eq
  rw [mkWord_toNat, BitVec.toNat_ofNat, BitVec.toNat_ofNat]
  omega

theorem encode_addrw_ofNat {n : Nat} (h : n ≤ 0xFF) :
    encode (.addrw (BitVec.ofNat 8 n)) = .word (BitVec.ofNat 24 (0x200000 + n)) :=
  congrArg Cmd.word (mkWord_opndB_ofNat 0x2 h)

/-- SETADDR's expansion cuts its operand into its two bytes (R70). -/
theorem expandSetaddr_eq (a : Half) :
    expandSetaddr a = [.latrst, .addrw ((a >>> 8).setWidth 8), .addrw (a.setWidth 8)] := by
  have hmask (v : Half) : (v &&& 0xFF#16).setWidth 8 = v.setWidth 8 := by
    rw [BitVec.setWidth_and]
    exact BitVec.and_allOnes
  rw [expandSetaddr, hmask, hmask]

theorem expandSetaddr_ofNat {n : Nat} (h : n ≤ 0xFFFF) :
    expandSetaddr (BitVec.ofNat 16 n) =
      [.latrst, .addrw (BitVec.ofNat 8 (n / 0x100)), .addrw (BitVec.ofNat 8 (n % 0x100))] := by
  have hhi : (BitVec.ofNat 16 n >>> 8).setWidth 8 = BitVec.ofNat 8 (n / 0x100) := by
    apply BitVec.eq_of_toNat_eq
    simp only [BitVec.toNat_setWidth, BitVec.toNat_ushiftRight, BitVec.toNat_ofNat, Nat.shiftRight_eq_div_pow]
    omega
  have hlo : (BitVec.ofNat 16 n).setWidth 8 = BitVec.ofNat 8 (n % 0x100) := by
    apply BitVec.eq_of_toNat_eq
    simp only [BitVec.toNat_setWidth, BitVec.toNat_ofNat]
    omega
  rw [expandSetaddr_eq, hhi, hlo]

end Sys2Proof.Machine
end

section
/-! The claims about the assembler (30_encoding.md section 5). -/

namespace Sys2Proof.Machine

open Sys2Proof.Claims

/-- The lines with a numeric operand. -/
theorem numberLines_assemble (n : Nat) :
    lineIs (.ctrlw n) (n ≤ 0xFF) [.word (BitVec.ofNat 24 (0x100000 + n))] [.ctrlw (BitVec.ofNat 8 n)] ∧
    lineIs (.addrw n) (n ≤ 0xFF) [.word (BitVec.ofNat 24 (0x200000 + n))] [.addrw (BitVec.ofNat 8 n)] ∧
    lineIs (.dataw n) (n ≤ 0xFF) [.word (BitVec.ofNat 24 (0x300000 + n))] [.dataw (BitVec.ofNat 8 n)] ∧
    lineIs (.mirror n) (n ≤ 0xFFFF) [.word (BitVec.ofNat 24 (0x900000 + n))] [.mirror (BitVec.ofNat 16 n)] ∧
    lineIs (.setaddr n) (n ≤ 0xFFFF)
      [.word 0x500000, .word (BitVec.ofNat 24 (0x200000 + n / 0x100)), .word (BitVec.ofNat 24 (0x200000 + n % 0x100))]
      [.latrst, .addrw (BitVec.ofNat 8 (n / 0x100)), .addrw (BitVec.ofNat 8 (n % 0x100))] ∧
    (n ≠ 1 → n ≠ 32 → assemble [.addrinc n] = none) := by
  have hbyte {l : AsmLine} {i : Instr} {op : BitVec 4} (hwf : l.wellFormed = decide (n ≤ 0xFF))
      (hl : expandLine l = [i]) (hi : encode i = .word (mkWord op (opndB (BitVec.ofNat 8 n)))) :
      lineIs l (n ≤ 0xFF) [.word (BitVec.ofNat 24 (op.toNat * 2 ^ 20 + n))] [i] :=
    lineIs_of_expandLine (by rw [hwf, decide_eq_true_iff]) (fun _ => hl) fun h => by
      rw [List.map_singleton, hi, mkWord_opndB_ofNat op h]
  refine ⟨hbyte (op := 0x1) rfl rfl rfl, hbyte (op := 0x2) rfl rfl rfl, hbyte (op := 0x3) rfl rfl rfl, ?_, ?_,
    fun h1 h32 => ?_⟩
  · exact lineIs_of_expandLine decide_eq_true_iff (fun _ => rfl) fun h =>
      congrArg (fun w => [Cmd.word w]) (mkWord_ofNat 0x9 h)
  · refine lineIs_of_expandLine decide_eq_true_iff (fun h => expandSetaddr_ofNat h) fun h => ?_
    rw [List.map_cons, List.map_cons, List.map_singleton, encode_addrw_ofNat (by omega), encode_addrw_ofNat (by omega)]
    rfl
  · rw [assemble_singleton, AsmLine.wellFormed, beq_false_of_ne h1, beq_false_of_ne h32]
    rfl

/-- Settles O53: each line by its range and its expansion, a program by its first line and the rest. -/
theorem assembledLinesDecodeToTheirExpansion : Obligations.AssembledLinesDecodeToTheirExpansion := by
  refine ⟨numberLines_assemble, lineIs_of_wellFormed rfl rfl rfl, lineIs_of_wellFormed rfl rfl rfl,
    lineIs_of_wellFormed rfl rfl rfl, lineIs_of_wellFormed rfl rfl rfl, lineIs_of_wellFormed rfl rfl rfl,
    lineIs_of_wellFormed rfl rfl rfl, lineIs_of_wellFormed rfl rfl rfl, lineIs_of_wellFormed rfl rfl rfl,
    lineIs_of_wellFormed rfl rfl rfl, fun raw => lineIs_of_wellFormed rfl rfl rfl, rfl,
    fun l ls => ⟨fun cs ds hl hls => ?_, fun h => ?_⟩⟩
  · rw [assemble_cons, hl, hls]
    rfl
  · rw [assemble_cons, Option.bind_eq_none_iff]
    intro cs hcs
    obtain h | h := h
    · rw [h] at hcs
      cases hcs
    · rw [h]
      rfl

end Sys2Proof.Machine
end

section
/-! SUPPORT. What the claims about steps and faults rest on: every command answers a next state and leaves the
sequencing alone, what LOAD does at each position, and how an effect can end (10_state.md R34,
60_exceptions.md R203-R207). -/

namespace Sys2Proof.Machine

/-! ## Every command answers a next state (R34) -/

theorem State.inEngine_total (s : State) (effect : EngineState → CommandEnd) : ∃ t, s.inEngine effect = .next t := by
  unfold State.inEngine
  split_ifs
  · exact ⟨s, rfl⟩
  · cases s.run with
    | noEngine f => exact ⟨s.raise .refSequence, rfl⟩
    | engine e => exact ⟨s.finish (effect e), rfl⟩

theorem execLoad_total (raw : List Byte) (s : State) : ∃ t, execLoad raw s = .next t := by
  unfold execLoad
  split_ifs
  · exact ⟨s, rfl⟩
  · exact ⟨s.raise .refSequence, rfl⟩
  · cases parse raw with
    | error err => exact ⟨s.raise err.cause, rfl⟩
    | ok r => exact ⟨{ s with run := .engine (EngineState.construct r s.init) }, rfl⟩

theorem exec_total (i : Instr) (s : State) : ∃ t, exec i s = .next t := by
  cases i with
  | load raw => exact execLoad_total raw s
  | _ => exact State.inEngine_total s _

theorem execIllegal_faulted {s : State} (hf : s.run.faultCode ≠ 0) : execIllegal s = .next s :=
  if_pos (State.faulted_of_ne hf)

theorem execIllegal_faultFree {s : State} (hf : s.run.faultCode = 0) : execIllegal s = .next (s.raise .refIllegal) :=
  if_neg (by simp [State.faulted_of_eq hf])

theorem runCommand_total (c : Cmd) (s : State) : ∃ t, runCommand c s = .next t := by
  unfold runCommand
  cases decodeCmd c with
  | ok i => exact exec_total i s
  | error why =>
    by_cases hf : s.run.faultCode = 0
    · exact ⟨_, execIllegal_faultFree hf⟩
    · exact ⟨s, execIllegal_faulted hf⟩

/-! ## The sequencing of the run is left alone -/

/-- What an instruction never changes, and the outputs it can add (30_encoding.md R68). -/
theorem exec_sequencing {i : Instr} {s t : State} (h : exec i s = .next t) :
    t.cursor = s.cursor ∧ t.pending = s.pending ∧ t.init = s.init ∧
      ∃ outs, t.outputs = s.outputs ++ outs ∧ outs.length ≤ 1 := by
  have hnone (u : State) (hu : u.outputs = s.outputs) : ∃ outs, u.outputs = s.outputs ++ outs ∧ outs.length ≤ 1 :=
    ⟨[], by simp [hu]⟩
  obtain ⟨_, rfl⟩ | ⟨_, _, rfl⟩ | ⟨e, _, _, rfl⟩ | ⟨_, _, _, _, ⟨_, _, rfl⟩ | ⟨_, _, rfl⟩⟩ := exec_cases h
  · exact ⟨rfl, rfl, rfl, hnone _ rfl⟩
  · exact ⟨rfl, rfl, rfl, hnone _ rfl⟩
  · exact ⟨by simp, by simp, by simp, s.finish_outputs _⟩
  · exact ⟨rfl, rfl, rfl, hnone _ rfl⟩
  · exact ⟨rfl, rfl, rfl, hnone _ rfl⟩

theorem runCommand_sequencing {c : Cmd} {s t : State} (h : runCommand c s = .next t) :
    t.cursor = s.cursor ∧ t.pending = s.pending ∧ t.init = s.init := by
  obtain ⟨i, _, he⟩ | ⟨_, _, he⟩ := runCommand_cases h
  · obtain ⟨hcursor, hpending, hinit, _⟩ := exec_sequencing he
    exact ⟨hcursor, hpending, hinit⟩
  · obtain ⟨_, rfl⟩ | ⟨_, rfl⟩ := execIllegal_cases he
    · exact ⟨rfl, rfl, rfl⟩
    · exact ⟨rfl, rfl, rfl⟩

/-! ## One step -/

/-- With a command that a run can contain a step runs it, then moves the cursor on. -/
theorem step_of_pending {s t : State} {c : Cmd} {rest : List Cmd} (hp : s.pending = c :: rest)
    (hw : c.wellFormed = true) (h : runCommand c s = .next t) :
    step s = .next { t with cursor := s.cursor + 1, pending := rest } := by
  obtain ⟨hcursor, hpending, _⟩ := runCommand_sequencing h
  have hstep : step s = .next t.advance := by
    unfold step
    rw [hp]
    exact (if_pos hw).trans (by rw [h, afterCommand])
  rw [hstep, State.advance, hcursor, hpending, hp, List.tail_cons]

theorem runCommand_of_decode {c : Cmd} {i : Instr} (h : decodeCmd c = .ok i) (s : State) :
    runCommand c s = exec i s := by rw [runCommand, h]

theorem runCommand_of_illegal {c : Cmd} {why : IllegalWord} (h : decodeCmd c = .error why) (s : State) :
    runCommand c s = execIllegal s := by rw [runCommand, h]

/-- In a faulted run no command has an effect (60_exceptions.md R205). -/
theorem runCommand_faulted {s : State} (hf : s.run.faultCode ≠ 0) (c : Cmd) : runCommand c s = .next s := by
  cases hd : decodeCmd c with
  | ok i => rw [runCommand_of_decode hd, exec_faulted hf]
  | error why => rw [runCommand_of_illegal hd, execIllegal_faulted hf]

/-- The one command no run can contain is LOAD's word without its image (30_encoding.md R67). -/
theorem wellFormed_of_ne {c : Cmd} (h : c ≠ .word 0xA00000) : c.wellFormed = true := by
  cases c with
  | word w => exact bne_iff_ne.mpr fun hw => h (congrArg Cmd.word hw)
  | load raw => rfl

/-- LOAD's word decodes, so an illegal word is a command a run can contain. -/
theorem ne_loadWord_of_illegal {w : CmdWord} {why : IllegalWord} (h : decode w [] = .error why) : w ≠ loadWord := by
  rintro rfl
  rw [show decode loadWord [] = .ok (.load []) by decide] at h
  cases h

/-- A step on an illegal word runs nothing but the fault (30_encoding.md R65). -/
theorem step_of_illegal {s t : State} {w : CmdWord} {rest : List Cmd} {why : IllegalWord}
    (hp : s.pending = .word w :: rest) (hd : decode w [] = .error why) (h : execIllegal s = .next t) :
    step s = .next { t with cursor := s.cursor + 1, pending := rest } :=
  step_of_pending hp (bne_iff_ne.mpr (ne_loadWord_of_illegal hd))
    ((runCommand_of_illegal (c := .word w) hd s).trans h)

/-! ## LOAD at each position (41_cartridge_loader.md R113-R115) -/

theorem execLoad_later {s : State} (hf : s.run.faultCode = 0) (hs : ¬ (s.cursor = 0 ∧ s.run = .noEngine 0))
    (raw : List Byte) : execLoad raw s = .next (s.raise .refSequence) := by
  have hstart : s.atRunStart = false := by rwa [Bool.eq_false_iff, ne_eq, State.atRunStart_iff]
  rw [execLoad, State.faulted_of_eq hf, hstart]
  rfl

/-- Without an engine only a LOAD at the start of a run is taken (R114). -/
theorem exec_noEngine_refused {i : Instr} {s : State} (hs : s.run = .noEngine 0)
    (h : (∀ raw, i ≠ .load raw) ∨ s.cursor ≠ 0) : exec i s = .next (s.raise .refSequence) := by
  by_cases hl : ∀ raw, i ≠ .load raw
  · rw [exec_eq_inEngine hl, State.inEngine_noEngine hs]
  · obtain hne | hc := h
    · exact absurd hne hl
    · simp only [not_forall, ne_eq, not_not] at hl
      obtain ⟨raw, rfl⟩ := hl
      exact execLoad_later (by rw [hs, RunState.faultCode_noEngine]) (fun h0 => hc h0.1) raw

/-- At the start of a run LOAD answers what the parser says. -/
theorem execLoad_first {s : State} (hr : s.run = .noEngine 0) (hc : s.cursor = 0) (raw : List Byte) :
    (∀ err, parse raw = .error err → execLoad raw s = .next (s.raise err.cause)) ∧
    (∀ r, parse raw = .ok r →
      execLoad raw s = .next { s with run := .engine (EngineState.construct r s.init) }) := by
  have hstart : s.atRunStart = true := (State.atRunStart_iff s).mpr ⟨hc, hr⟩
  have hfault : s.faulted = false := State.faulted_of_eq (by rw [hr]; rfl)
  constructor
  · intro err h
    rw [execLoad, hfault, hstart, h]
    rfl
  · intro r h
    rw [execLoad, hfault, hstart, h]
    rfl

theorem State.raise_of_noEngine {s : State} {f : Byte} (hr : s.run = .noEngine f) (c : Cause) :
    s.raise c = { s with run := .noEngine c.code } := by rw [State.raise, hr, RunState.raise_noEngine]

theorem State.raise_of_engine {s : State} {e : EngineState} (hr : s.run = .engine e) (c : Cause) :
    s.raise c = { s with run := .engine { e with fault := c.code } } := by
  rw [State.raise, hr, RunState.raise_engine]

/-! ## How an effect ends -/

/-- An instruction other than DATAR completes with the fault register as it was, or raises a fault and has no effect
(60_exceptions.md R204). -/
theorem effectOf_ends {i : Instr} (hi : i ≠ .datar) (e : EngineState) :
    (∃ f out, effectOf i e = .done f out ∧ f.fault = e.fault) ∨ ∃ c, effectOf i e = .raised e c := by
  cases i with
  | datar => exact absurd rfl hi
  | ctrlw b => exact .inl ⟨_, _, rfl, rfl⟩
  | addrw b => exact .inl ⟨_, _, rfl, by rw [e.writeAddr_frame]⟩
  | dataw b => exact .inr ⟨_, rfl⟩
  | latrst => exact .inl ⟨_, _, rfl, rfl⟩
  | addrr => exact .inl ⟨_, _, rfl, rfl⟩
  | incq => exact .inl ⟨_, _, rfl, rfl⟩
  | addrinc1 => exact .inl ⟨_, _, rfl, e.addrIncrement_fault 1⟩
  | addrinc32 => exact .inl ⟨_, _, rfl, e.addrIncrement_fault 32⟩
  | mirror a =>
    rw [effectOf]
    split_ifs
    · exact .inl ⟨_, _, rfl, rfl⟩
    · exact .inr ⟨_, rfl⟩
  | load raw => exact .inr ⟨_, rfl⟩

end Sys2Proof.Machine
end

section
/-! The claims about steps, faults and sequencing (10_state.md R34, 60_exceptions.md,
41_cartridge_loader.md section 4). -/

namespace Sys2Proof.Machine

open Sys2Proof.Claims

/-- Settles O6: a step runs its command, and no instruction touches the cursor or the list. -/
theorem stepRunsTheDecodedCommand : Obligations.StepRunsTheDecodedCommand :=
  fun s _ _ _ _ hp hw hd h => step_of_pending hp hw ((runCommand_of_decode hd s).trans h)

/-- Settles O7, for each shape of the run. -/
theorem illegalWordIsRecordedByTheStep : Obligations.IllegalWordIsRecordedByTheStep := by
  intro s w rest why hp hd
  refine ⟨fun e hs hf => ?_, fun hs => ?_, fun hf => step_of_illegal hp hd (execIllegal_faulted hf)⟩
  · have hfree : s.run.faultCode = 0 := by rw [hs, RunState.faultCode_engine, hf]
    rw [step_of_illegal hp hd (execIllegal_faultFree hfree), State.raise_of_engine hs]
    rfl
  · have hfree : s.run.faultCode = 0 := by rw [hs, RunState.faultCode_noEngine]
    rw [step_of_illegal hp hd (execIllegal_faultFree hfree), State.raise_of_noEngine hs]
    rfl

/-- Settles O8: totality, and the frame of every branch. -/
theorem execLeavesSequencingAlone : Obligations.ExecLeavesSequencingAlone := by
  intro i s
  obtain ⟨t, h⟩ := exec_total i s
  exact ⟨t, h, exec_sequencing h⟩

/-- Settles O9: the two stops of `step`, and totality elsewhere. -/
theorem stepTakesExactlyOneCommand : Obligations.StepTakesExactlyOneCommand := by
  refine fun s => ⟨fun hp => by rw [step, hp], fun rest hp => by rw [step, hp]; rfl, fun c rest hp hc => ?_⟩
  obtain ⟨t, h⟩ := runCommand_total c s
  exact ⟨_, step_of_pending hp (wellFormed_of_ne hc) h, rfl, rfl⟩

/-- Settles O10: the run's fault comes before everything else. -/
theorem faultedRunIgnoresEveryInstruction : Obligations.FaultedRunIgnoresEveryInstruction :=
  fun i _ hf => exec_faulted hf i

/-- Settles O11, by induction on the commands: each step moves the cursor alone. -/
theorem faultedRunStaysStuck : Obligations.FaultedRunStaysStuck := by
  intro cmds
  induction cmds with
  | nil => exact fun s _ _ => RunsTo_nil.mpr rfl
  | cons c cs ih =>
    intro s hw hf
    have hrun := runCommand_faulted (s := s.withCommands (c :: cs)) hf c
    have hstep : step (s.withCommands (c :: cs)) = .next { s with cursor := s.cursor + 1, pending := cs } :=
      step_of_pending (t := s.withCommands (c :: cs)) rfl (hw c List.mem_cons_self) hrun
    have hrest := ih { s with cursor := s.cursor + 1, pending := cs } (fun d hd => hw d (List.mem_cons_of_mem c hd)) hf
    refine RunsTo_cons.mpr ⟨_, hstep, ?_⟩
    rwa [List.length_cons, Nat.add_comm cs.length, ← Nat.add_assoc]

/-- Settles O12: the frame of every command but LOAD. -/
theorem commandBeforeLoadIsRefused : Obligations.CommandBeforeLoadIsRefused := by
  intro i s hs hi
  rw [exec_noEngine_refused hs (.inl hi), State.raise_of_noEngine hs]
  rfl

/-- Settles O13: in an engine, and at a later position without one, LOAD is not at the start of a run. -/
theorem laterLoadIsRefused : Obligations.LaterLoadIsRefused := by
  refine fun raw s => ⟨fun e hs hf => exec_engine hs hf (.load raw), fun hs hc => ?_⟩
  rw [exec_noEngine_refused hs (.inr hc), State.raise_of_noEngine hs]
  rfl

/-- Settles O14: an effect that ends in a fault leaves the engine it began in. -/
theorem faultChangesOnlyTheFaultRegister : Obligations.FaultChangesOnlyTheFaultRegister := by
  intro i s t e f hi hs hf h ht hff
  obtain ⟨hne, _⟩ | ⟨_, rfl, rfl⟩ := exec_engineAfter_cases hs h ht
  · exact absurd hf hne
  · obtain ⟨g, out, hd, hg⟩ | ⟨c, hd⟩ := effectOf_ends hi e
    · rw [hd, CommandEnd.engineAfter_done, hg] at hff
      exact absurd hf hff
    · rw [hd]
      rfl

/-- Settles O46: LOAD at the start of a run constructs the engine of the parsed record. -/
theorem loadConstructsTheEngine : Obligations.LoadConstructsTheEngine := by
  intro raw s r hs hc hp
  have haddr : addrOf (EngineState.construct r s.init) = s.init.addr.setWidth 16 :=
    (BitVec.extractLsb'_append_extractLsb'_eq_extractLsb' rfl).trans BitVec.extractLsb'_eq_self
  exact ⟨EngineState.construct r s.init, (execLoad_first hs hc raw).2 r hp, rfl, rfl, haddr, rfl, rfl, rfl, rfl, rfl,
    rfl, rfl⟩

/-- Settles O47, for each of the three errors. -/
theorem loadRecordsTheParseError : Obligations.LoadRecordsTheParseError := by
  intro raw s hs hc
  have hload {err : ParseError} (hp : parse raw = .error err) :
      exec (.load raw) s = .next { s with run := .noEngine err.cause.code } := by
    rw [exec, (execLoad_first hs hc raw).1 err hp, State.raise_of_noEngine hs]
  exact ⟨hload, hload, hload⟩

/-- Settles O48: the stores are written out in canonical form, whatever they hold. -/
theorem resetMeetsTheInvariant : Obligations.ResetMeetsTheInvariant := by
  have hshape : State.reset.shapeInv := ⟨by decide, iff_of_true rfl rfl⟩
  have hinit : State.reset.init.Inv :=
    ⟨Memory.ofFn_wf _ _, Memory.ofFn_wf _ _, Memory.ofFn_wf _ _, Memory.ofFn_wf _ _⟩
  exact ⟨rfl, rfl, rfl, hshape, hinit, fun _ h => absurd h List.not_mem_nil⟩

/-- Settles O52: a second one finds the run faulted, or the register as the first one left it. -/
theorem ctrlwAndLatrstAreIdempotent : Obligations.CtrlwAndLatrstAreIdempotent := by
  intro i s t hi h
  obtain ⟨_, rfl⟩ | ⟨_, _, rfl⟩ | ⟨e, _, hf, rfl⟩ | ⟨raw, rfl, _⟩ := exec_cases h
  · exact h
  · exact exec_faulted (by rw [State.raise_faultCode]; exact Cause.code_ne_zero _) i
  · obtain rfl | ⟨b, rfl⟩ := hi
    · exact exec_engine (e := { e with awaitingHigh := true }) rfl hf .latrst
    · exact exec_engine (e := { e with ctrl := b }) rfl hf (.ctrlw b)
  · simp at hi

end Sys2Proof.Machine
end

section
/-! SUPPORT. What the claims about the control register and the address port rest on: the step in numbers, the port's
writers in closed form, and fault-free runs of commands in an engine (42_address_port.md, 43_control_register.md). -/

namespace Sys2Proof.Machine

open Sys2Proof.Claims

/-! ## The step (43_control_register.md R151) -/

theorem incrementStep_eq (ctrl : Byte) : incrementStep ctrl = if ctrl &&& 0x04 ≠ 0 then 32 else 1 := by
  revert ctrl; decide

theorem incrementStep_setWidth (ctrl : Byte) : (incrementStep ctrl).setWidth 16 = stepOf ctrl := by
  revert ctrl; decide

/-! ## The two halves (10_state.md R25) -/

/-- Setting the port to two halves. -/
theorem withAddr_append (e : EngineState) (hi lo : Byte) :
    withAddr e (hi ++ lo) = { e with addrHi := hi, addrLo := lo } := by
  have hhi : (hi ++ lo : Half).extractLsb' 8 8 = hi := BitVec.extractLsb'_append_eq_left
  have hlo : (hi ++ lo : Half).extractLsb' 0 8 = lo := BitVec.extractLsb'_append_eq_right
  rw [← EngineState.setAddr_eq_withAddr, EngineState.setAddr, hhi, hlo]

/-- A 16-bit value is its two bytes. -/
theorem halves_eq (v : Half) : ((v >>> 8).setWidth 8 ++ v.setWidth 8 : Half) = v := by
  have hv : v.toNat < 2 ^ 16 := v.isLt
  apply BitVec.eq_of_toNat_eq
  rw [halves_toNat]
  simp only [BitVec.toNat_setWidth, BitVec.toNat_ushiftRight, Nat.shiftRight_eq_div_pow]
  omega

/-- Masking to 14 bits clears the two top bits of the high half. -/
theorem halves_and_0x3FFF (hi lo : Byte) : (hi ++ lo : Half) &&& 0x3FFF = (hi &&& 0x3F) ++ lo := by
  rw [show (0x3FFF : Half) = (0x3F : Byte) ++ (0xFF : Byte) by decide, BitVec.and_append,
    show lo &&& 0xFF = lo from BitVec.and_allOnes]

theorem and_0x3F_le (b : Byte) : b &&& 0x3F ≤ 0x3F := by
  revert b; decide

/-- The high half of a masked value has 6 bits (10_state.md R27). -/
theorem high_le_of_masked (v : Half) : ((v &&& 0x3FFF) >>> 8).setWidth 8 ≤ (0x3F : Byte) := by
  have hv : v.toNat &&& 0x3FFF ≤ 0x3FFF := Nat.and_le_right
  change (v.toNat &&& 0x3FFF) >>> 8 % 2 ^ 8 ≤ 0x3F
  rw [Nat.shiftRight_eq_div_pow]
  omega

/-- Low-byte addition with the carry found by comparison is addition of 16-bit values (42_address_port.md R133). -/
theorem halves_add (hi lo step : Byte) :
    ((if lo + step < lo then hi + 1 else hi) ++ (lo + step) : Half) = (hi ++ lo) + step.setWidth 16 := by
  have hhi : hi.toNat < 2 ^ 8 := hi.isLt
  have hlo : lo.toNat < 2 ^ 8 := lo.isLt
  have hstep : step.toNat < 2 ^ 8 := step.isLt
  apply BitVec.eq_of_toNat_eq
  rw [BitVec.toNat_add, halves_toNat, halves_toNat, BitVec.toNat_setWidth_of_le (by decide), BitVec.toNat_add]
  split_ifs with h
  · have hcarry : (lo.toNat + step.toNat) % 2 ^ 8 < lo.toNat := by simpa [BitVec.lt_def] using h
    rw [BitVec.toNat_add, show (1 : Byte).toNat = 1 from rfl]
    omega
  · have hcarry : ¬ (lo.toNat + step.toNat) % 2 ^ 8 < lo.toNat := by simpa [BitVec.lt_def] using h
    omega

/-! ## The writers of the port in closed form -/

theorem EngineState.addrIncrement_closed (e : EngineState) (step : Byte) :
    e.addrIncrement step = withAddr e ((addrOf e + step.setWidth 16) &&& 0x3FFF) := by
  rw [EngineState.addrIncrement_eq, halves_add]

theorem effectOf_addrw_high {e : EngineState} (h : e.awaitingHigh = true) (b : Byte) :
    effectOf (.addrw b) e = .done { e with addrHi := b &&& 0x3F, awaitingHigh := false } none := by
  rw [effectOf, EngineState.writeAddr_eq, if_pos h, halves_and_0x3FFF, withAddr_append, h]
  rfl

theorem effectOf_addrw_low {e : EngineState} (h : e.awaitingHigh = false) (hhi : e.addrHi ≤ 0x3F) (b : Byte) :
    effectOf (.addrw b) e = .done { e with addrLo := b, awaitingHigh := true } none := by
  rw [effectOf, EngineState.writeAddr_eq, if_neg (by simp [h]), and_0x3FFF_of_le (halves_le_of_high_le hhi b),
    withAddr_append, h]
  rfl

/-- DATAR's effect, its increment in closed form (45_data_port.md R180, R188). -/
theorem effectOf_datar (e : EngineState) : effectOf .datar e = (withAddr e (nextAddr e)).dataRead (addrOf e) := by
  rw [effectOf, EngineState.addrIncrement_closed, incrementStep_setWidth]
  rfl

/-! ## A run of commands in an engine -/

/-- A run that begins with an instruction that completes without output. -/
theorem RunsTo_encode_cons {s u : State} {e f : EngineState} {i : Instr} {cs : List Cmd} (hs : s.run = .engine e)
    (hf : e.fault = 0) (hi : effectOf i e = .done f none)
    (h : RunsTo { s with run := .engine f, cursor := s.cursor + 1, pending := cs } cs u) :
    RunsTo s (encode i :: cs) u := by
  have hexec := exec_of_effectOf_done (s := s.withCommands (encode i :: cs)) hs hf hi
  have hrun := (runCommand_of_decode (decodeCmd_encode i) _).trans hexec
  exact RunsTo_cons.mpr ⟨_, step_of_pending rfl (encode_wellFormed i) hrun, h⟩

/-- Running a command in an engine leaves an engine; without a fault after it there was none before, and the command is
an instruction that had its effect. -/
theorem runCommand_engine {c : Cmd} {s t : State} {e : EngineState} (hs : s.run = .engine e)
    (h : runCommand c s = .next t) :
    ∃ f, t.run = .engine f ∧
      (f.fault = 0 → e.fault = 0 ∧ ∃ i, decodeCmd c = .ok i ∧ f = (effectOf i e).engineAfter) := by
  obtain ⟨i, hd, he⟩ | ⟨_, _, he⟩ := runCommand_cases h
  · obtain ⟨hf, rfl⟩ | ⟨hf, rfl⟩ := exec_engine_cases hs he
    · exact ⟨e, hs, fun h0 => absurd h0 hf⟩
    · exact ⟨_, s.finish_run _, fun _ => ⟨hf, i, hd, rfl⟩⟩
  · obtain ⟨hf, rfl⟩ | ⟨_, rfl⟩ := execIllegal_cases he
    · rw [hs] at hf
      exact ⟨e, hs, fun h0 => absurd h0 hf⟩
    · exact ⟨{ e with fault := Cause.refIllegal.code }, by rw [State.raise_of_engine hs],
        fun h0 => absurd h0 Cause.refIllegal.code_ne_zero⟩

/-- A run from an engine that ends without fault has decoded every command, and each had its effect. -/
theorem RunsTo_engine {cmds : List Cmd} {s t : State} {e f : EngineState} (hs : s.run = .engine e)
    (h : RunsTo s cmds t) (ht : t.run = .engine f) (hf : f.fault = 0) :
    e.fault = 0 ∧ ∃ is : List Instr, List.Forall₂ (fun c i => decodeCmd c = .ok i) cmds is ∧
      f = is.foldl (fun g i => (effectOf i g).engineAfter) e := by
  induction cmds generalizing s e with
  | nil =>
    rw [RunsTo_nil.mp h] at ht
    obtain rfl : e = f := RunState.engine.inj (hs.symm.trans ht)
    exact ⟨hf, [], .nil, rfl⟩
  | cons c cs ih =>
    obtain ⟨u, hu, hrest⟩ := RunsTo_cons.mp h
    obtain ⟨d, _, v, hp, _, hv, rfl⟩ := step_cases hu
    obtain ⟨rfl, rfl⟩ := List.cons_eq_cons.mp hp
    obtain ⟨g, hg, hgf⟩ := runCommand_engine (s := s.withCommands (c :: cs)) hs hv
    obtain ⟨hg0, is, his, hfold⟩ := ih (s := v.advance) hg hrest
    obtain ⟨he0, i, hi, rfl⟩ := hgf hg0
    exact ⟨he0, i :: is, .cons hi his, hfold⟩

/-- A LOAD with its image decodes to LOAD (30_encoding.md R67). -/
theorem eq_load_of_decodeCmd {raw : List Byte} {i : Instr} (h : decodeCmd (.load raw) = .ok i) : i = .load raw :=
  Except.ok.inj (h.symm.trans (decodeCmd_encode (.load raw)))

/-- An instruction other than LOAD stands for its word alone. -/
theorem eq_word_of_decodeCmd {c : Cmd} {i : Instr} (h : decodeCmd c = .ok i) (hi : ∀ raw, i ≠ .load raw) :
    c = .word (encodeWord i) := by
  cases c with
  | word w => exact congrArg Cmd.word (encodeWord_of_decode h).symm
  | load raw => exact absurd (eq_load_of_decodeCmd h) (hi raw)

/-! ## The latch along a run -/

theorem tableRow_eq_addrw_iff (i : Instr) (b : Byte) : i.tableRow = (Instr.addrw b).tableRow ↔ ∃ b', i = .addrw b' := by
  cases i <;> simp [Instr.tableRow]

/-- The ADDRW words are the commands that decode to ADDRW. -/
theorem isAddrw_iff {c : Cmd} {i : Instr} (h : decodeCmd c = .ok i) : isAddrw c = true ↔ ∃ b, i = .addrw b := by
  cases c with
  | word w =>
    have hi : i.tableRow.admits w = true := tableRow_admits_of_decode h
    have hmem := tableRow_mem_opcodeTable
    rw [← tableRow_eq_addrw_iff i 0]
    constructor
    · exact fun hw => tableRow_unique (hmem i) (hmem _) hi hw
    · intro hrow
      rw [hrow] at hi
      exact hi
  | load raw =>
    rw [eq_load_of_decodeCmd h]
    exact iff_of_false (by simp [isAddrw]) (by simp)

/-- Only ADDRW flips the latch, and LATRST sets it. -/
theorem effectOf_awaitingHigh {i : Instr} (hl : i ≠ .latrst) (e : EngineState) :
    (effectOf i e).engineAfter.awaitingHigh = if ∃ b, i = .addrw b then !e.awaitingHigh else e.awaitingHigh := by
  cases i with
  | latrst => exact absurd rfl hl
  | addrw b =>
    rw [if_pos ⟨b, rfl⟩, effectOf, CommandEnd.engineAfter_done, e.writeAddr_frame]
  | datar =>
    rw [if_neg (by simp), effectOf_datar]
    obtain ⟨b, hd⟩ | ⟨c, hd, _⟩ := (withAddr e (nextAddr e)).dataRead_cases (addrOf e)
    · rw [hd, CommandEnd.engineAfter_done]
    · rw [hd, CommandEnd.engineAfter_raised]
  | addrinc1 => rw [if_neg (by simp), effectOf, CommandEnd.engineAfter_done, e.addrIncrement_frame]
  | addrinc32 => rw [if_neg (by simp), effectOf, CommandEnd.engineAfter_done, e.addrIncrement_frame]
  | mirror a =>
    rw [if_neg (by simp), effectOf]
    split_ifs <;> rfl
  | _ => exact (if_neg (by simp)).symm

/-- Instructions without LATRST flip the latch once for each ADDRW. -/
theorem foldl_effectOf_awaitingHigh {cmds : List Cmd} {is : List Instr}
    (his : List.Forall₂ (fun c i => decodeCmd c = .ok i) cmds is) (hl : ∀ c ∈ cmds, c ≠ .word 0x500000)
    (e : EngineState) :
    (is.foldl (fun g i => (effectOf i g).engineAfter) e).awaitingHigh =
      (e.awaitingHigh ^^ decide ((cmds.filter isAddrw).length % 2 = 1)) := by
  induction his generalizing e with
  | nil => simp
  | @cons c i cs is hi _ ih =>
    have hne : i ≠ .latrst := by
      rintro rfl
      exact hl c List.mem_cons_self (eq_word_of_decodeCmd hi (by simp))
    rw [List.foldl_cons, ih fun d hd => hl d (List.mem_cons_of_mem c hd), effectOf_awaitingHigh hne, List.filter_cons]
    by_cases hw : isAddrw c = true
    · rw [if_pos ((isAddrw_iff hi).mp hw), if_pos hw, List.length_cons, Bool.not_xor, ← Bool.xor_not, ← decide_not]
      congr 2
      exact propext (by omega)
    · rw [if_neg (fun h => hw ((isAddrw_iff hi).mpr h)), if_neg hw]

end Sys2Proof.Machine
end

section
/-! The claims about the control register and the address port (43_control_register.md, 42_address_port.md). -/

namespace Sys2Proof.Machine

open Sys2Proof.Claims

/-- Settles O15: CTRLW's effect, and the step INCQ finds after it. -/
theorem ctrlwReplacesTheWholeRegister : Obligations.CtrlwReplacesTheWholeRegister := by
  refine fun b s e hs hf => ⟨decode_ctrlw b [], exec_of_effectOf_done hs hf rfl, ?_⟩
  rintro rfl
  refine exec_of_effectOf_output (e := { e with ctrl := 0x04 }) rfl hf ?_
  exact congrArg (fun v => CommandEnd.done _ (some (.byte v))) (show incrementStep 0x04 = 32 by decide)

/-- Settles O16: INCQ leaves the engine alone and outputs the step. -/
theorem incqReturnsTheStep : Obligations.IncqReturnsTheStep := by
  intro s e hs hf
  refine exec_of_effectOf_output hs hf ?_
  rw [effectOf, incrementStep_eq]

/-- Settles O19: below 0x4000 the mask touches only a high byte being written. -/
theorem addrwClosedForm : Obligations.AddrwClosedForm := by
  intro b s e hs hf hhi
  exact ⟨fun h => exec_of_effectOf_done hs hf (effectOf_addrw_high h b),
    fun h => exec_of_effectOf_done hs hf (effectOf_addrw_low h hhi b)⟩

/-- Settles O21: the carry by comparison is the carry of the sum. -/
theorem addrincClosedForm : Obligations.AddrincClosedForm := by
  intro s e hs hf
  refine ⟨exec_of_effectOf_done hs hf ?_, exec_of_effectOf_done hs hf ?_⟩
  · rw [effectOf, EngineState.addrIncrement_closed]
    rfl
  · rw [effectOf, EngineState.addrIncrement_closed]
    rfl

/-- Settles O24: LATRST makes the first ADDRW write the high half, whose masked value keeps the second from masking. -/
theorem setaddrSetsTheAddress : Obligations.SetaddrSetsTheAddress := by
  intro a16 s e hs hf
  have haddr : withAddr e (a16 &&& 0x3FFF) =
      { e with addrHi := (a16 >>> 8).setWidth 8 &&& 0x3F, addrLo := a16.setWidth 8 } := by
    conv_lhs => rw [← halves_eq a16, halves_and_0x3FFF, withAddr_append]
  rw [expandSetaddr_eq, haddr]
  exact RunsTo_encode_cons hs hf rfl <| RunsTo_encode_cons rfl hf (effectOf_addrw_high rfl _) <|
    RunsTo_encode_cons rfl hf (effectOf_addrw_low rfl (and_0x3F_le _) _) <| RunsTo_nil.mpr rfl

/-- Settles O25: a fault-free run is its instructions' effects one after the other, and each ADDRW among them flips the
latch. -/
theorem latchParityLaw : Obligations.LatchParityLaw := by
  intro cmds s t e f hs hlatch hl h ht hf
  obtain ⟨_, is, his, rfl⟩ := RunsTo_engine hs h ht hf
  rw [foldl_effectOf_awaitingHigh his hl, hlatch, Bool.true_xor, ← decide_not, decide_eq_true_iff]
  omega

/-- Settles O26: the increment leaves 14 bits and the latch, so the pending write is a low write that masks nothing. -/
theorem pendingLowWriteAfterRead : Obligations.PendingLowWriteAfterRead := by
  intro s t e e₁ b hs hf hlatch h ht hf₁
  obtain ⟨hne, _⟩ | ⟨_, rfl, rfl⟩ := exec_engineAfter_cases hs h ht
  · exact absurd hf hne
  · refine exec_of_effectOf_done ht hf₁ ?_
    rw [effectOf_datar] at hf₁ ⊢
    obtain ⟨v, hd⟩ | ⟨c, hd, _⟩ := (withAddr e (nextAddr e)).dataRead_cases (addrOf e)
    · rw [hd]
      exact effectOf_addrw_low (e := { withAddr e (nextAddr e) with readBuffer := v }) hlatch (high_le_of_masked _) b
    · rw [hd] at hf₁
      exact absurd hf₁ c.code_ne_zero

end Sys2Proof.Machine
end

section
/-! SUPPORT. What the claims about the fold by its steps and its range rest on: an instruction that raises a fault, and
the fold's masks and banks in numbers (44_vram_mirroring.md R160, R161). -/

namespace Sys2Proof.Machine

open Sys2Proof.Claims

/-- An instruction that raises a fault leaves the engine its effect stopped in, with the fault's code
(60_exceptions.md R203, R204). -/
theorem exec_of_effectOf_raised {i : Instr} {s : State} {e f : EngineState} {c : Cause} (hs : s.run = .engine e)
    (hf : e.fault = 0) (hi : effectOf i e = .raised f c) :
    exec i s = .next { s with run := .engine { f with fault := c.code } } := by
  rw [exec_engine hs hf, hi, State.finish_raised]

/-- What steps 3 and 4 of R160 leave of the index `t * 0x400 + o` is the table's row (R161). -/
theorem fourSteps_eq_bankOf (mode : Mirroring) {t o : Nat} (ht : t < 4) :
    (match mode with
      | .vertical => if t = 2 ∨ t = 3 then t * 0x400 + o - 0x800 else t * 0x400 + o
      | .horizontal =>
        if t = 1 ∨ t = 2 then t * 0x400 + o - 0x400 else if t = 3 then t * 0x400 + o - 0x800 else t * 0x400 + o
      | .fourScreen => t * 0x400 + o) = bankOf mode t * 0x400 + o := by
  cases mode with
  | vertical => dsimp only [bankOf]; split_ifs <;> omega
  | horizontal => dsimp only [bankOf]; split_ifs <;> omega
  | fourScreen => rfl

/-- Masking with 0x2FFF on the domain keeps the low 12 bits above 0x2000. -/
theorem and_0x2FFF_toNat {a : Half} (hlo : 0x2000 ≤ a) (hhi : a ≤ 0x3EFF) :
    (a &&& 0x2FFF).toNat = 0x2000 + a.toNat % 0x1000 := by
  have h := vramIndex_toNat hlo hhi
  have hlt : (a &&& 0x2FFF).toNat < 2 ^ 16 := (a &&& 0x2FFF).isLt
  change (2 ^ 16 - 0x2000 + (a &&& 0x2FFF).toNat) % 2 ^ 16 = a.toNat % 0x1000 at h
  omega

/-- Only FourScreen has more than the two physical banks (R161). -/
theorem bankOf_le (mode : Mirroring) {table : Nat} (h : table < 4) :
    bankOf mode table ≤ 3 ∧ (mode ≠ .fourScreen → bankOf mode table ≤ 1) := by
  interval_cases table <;> cases mode <;> simp [bankOf]

/-- The low 10 bits of an address as a number. -/
theorem and_0x3FF_toNat (v : Half) : (v &&& 0x3FF).toNat = v.toNat % 2 ^ 10 := Nat.and_two_pow_sub_one_eq_mod _ 10

/-- Bit 11 of an address as a number. -/
theorem and_0x0800_ne_zero_iff (v : Half) : v &&& 0x0800 ≠ 0 ↔ v.toNat / 0x800 % 2 = 1 := by
  have hand : (v &&& 0x0800).toNat = (v.toNat.testBit 11).toNat * 2 ^ 11 := Nat.and_two_pow _ 11
  have htest : v.toNat.testBit 11 = decide (v.toNat / 0x800 % 2 = 1) := Nat.testBit_eq_decide_div_mod_eq
  rw [ne_eq, ← BitVec.toNat_inj, hand, htest]
  by_cases h : v.toNat / 0x800 % 2 = 1 <;> simp [h]

end Sys2Proof.Machine
end

section
/-! The claims about the fold by its steps, its range and its domain (44_vram_mirroring.md sections 1 and 2). -/

namespace Sys2Proof.Machine

open Sys2Proof.Claims

/-- Settles O28: the index counted by the four steps is the table's. -/
theorem mirrorFollowsTheFourSteps : Obligations.MirrorFollowsTheFourSteps := by
  intro a s e hs hf hlo hhi i t r
  have hi : i = t * 0x400 + a.toNat % 0x400 := by
    have := and_0x2FFF_toNat hlo hhi
    omega
  have ht : t = a.toNat / 0x400 % 4 := by
    have := and_0x2FFF_toNat hlo hhi
    omega
  have hr : r = physicalIndex e.record.mirroring a := by
    have hsteps := fourSteps_eq_bankOf e.record.mirroring (o := a.toNat % 0x400) (show t < 4 by omega)
    rw [← hi] at hsteps
    rw [physicalIndex, ← ht]
    exact hsteps
  rw [hr]
  refine exec_of_effectOf_output hs hf ?_
  rw [effectOf_mirror_of_mem_domain hlo hhi, mirrorIndex_eq_ofNat_physicalIndex _ hlo hhi]

/-- Settles O29: MIRROR checks its domain first. -/
theorem mirrorOutsideItsDomainFaults : Obligations.MirrorOutsideItsDomainFaults := by
  intro a s e hs hf ha
  have hdomain : ¬ inMirrorDomain a = true := by
    simp only [inMirrorDomain, Bool.and_eq_true, decide_eq_true_eq]
    bv_omega
  exact exec_of_effectOf_raised (c := .cvMirrorDomain) hs hf (by rw [effectOf, if_neg hdomain])

/-- Settles O30, in numbers: the index is a bank of 0 to 3 and the 10 bits of the offset. -/
theorem mirrorIndexRange : Obligations.MirrorIndexRange := by
  intro mode a hlo hhi
  have hindex : (mirrorIndex mode a).toNat = bankOf mode (a.toNat / 0x400 % 4) * 0x400 + a.toNat % 0x400 :=
    mirrorIndex_toNat mode hlo hhi
  obtain ⟨hbank3, hbank1⟩ := bankOf_le mode (Nat.mod_lt (a.toNat / 0x400) (show 0 < 4 by decide))
  refine ⟨fun hmode => ?_, ?_, fun hmode => ?_, BitVec.eq_of_toNat_eq ?_⟩
  · have hbank := hbank1 hmode
    change (mirrorIndex mode a).toNat ≤ 0x7FF
    omega
  · change (mirrorIndex mode a).toNat ≤ 0xFFF
    omega
  · subst hmode
    rw [and_0x0800_ne_zero_iff]
    change 0x800 ≤ (mirrorIndex .fourScreen a).toNat ↔ _
    rw [hindex, bankOf]
    omega
  · rw [and_0x3FF_toNat, and_0x3FF_toNat, hindex]
    omega

end Sys2Proof.Machine
end

section
/-! SUPPORT. What the claims about the data port rest on: the dispatch of DATAR, range by range, and the read buffer
along a run (45_data_port.md R180-R188). -/

namespace Sys2Proof.Machine

open Sys2Proof.Claims

/-! ## The dispatch (20_memory.md R41) -/

theorem regionOf_pattern_range {a : Half} (h : a ≤ 0x1FFF) : regionOf a = .pattern := if_pos h

theorem regionOf_nametable_range {a : Half} (hlo : 0x2000 ≤ a) (hhi : a ≤ 0x2FFF) : regionOf a = .nametable := by
  rw [regionOf, if_neg (by bv_omega), if_pos hhi]

theorem regionOf_alias_range {a : Half} (hlo : 0x3000 ≤ a) (hhi : a ≤ 0x3EFF) : regionOf a = .aliasRange := by
  rw [regionOf, if_neg (by bv_omega), if_neg (by bv_omega), if_pos hhi]

theorem regionOf_palette_range {a : Half} (hlo : 0x3F00 ≤ a) (hhi : a ≤ 0x3FFF) : regionOf a = .palette := by
  rw [regionOf, if_neg (by bv_omega), if_neg (by bv_omega), if_neg (by bv_omega), if_pos hhi]

theorem regionOf_beyond_range {a : Half} (hlo : 0x4000 ≤ a) : regionOf a = .beyond := by
  rw [regionOf, if_neg (by bv_omega), if_neg (by bv_omega), if_neg (by bv_omega), if_neg (by bv_omega)]

/-- `PatternRead` (R181): CHR at the address itself. -/
theorem EngineState.dataRead_pattern (e : EngineState) {a : Half} (h : a ≤ 0x1FFF) :
    e.dataRead a = e.bufferedRead e.record.characterData[a.toNat]? .cvChrIndex := by
  rw [EngineState.dataRead, regionOf_pattern_range h]
  rfl

/-- `NametableRead` (R182): NT at the folded index, which is the table's. -/
theorem EngineState.dataRead_nametable (e : EngineState) {a : Half} (hlo : 0x2000 ≤ a) (hhi : a ≤ 0x2FFF) :
    e.dataRead a = e.bufferedRead (e.nt.read Config.ntSize (physicalIndex e.record.mirroring a)) .cvNtIndex := by
  rw [EngineState.dataRead, regionOf_nametable_range hlo hhi, ← mirrorIndex_toNat _ hlo (by bv_omega)]
  rfl

/-! ## DATAR in an engine without fault -/

section DatarInAnEngine
variable {s : State} {e : EngineState}

/-- A read that completes (R181, R182): the address is advanced, the buffer refreshed, its old byte output. -/
theorem exec_datar_of_done {b : Byte} (hs : s.run = .engine e) (hf : e.fault = 0)
    (h : (withAddr e (nextAddr e)).dataRead (addrOf e) =
      .done { withAddr e (nextAddr e) with readBuffer := b } (some (.byte e.readBuffer))) :
    exec .datar s =
      .next { s with run := .engine { withAddr e (nextAddr e) with readBuffer := b },
                     outputs := s.outputs ++ [.byte e.readBuffer] } := by
  rw [exec_engine hs hf, effectOf_datar, h, State.finish_done, addOutput_some]

/-- A read that raises a fault (R183-R185, R188): the address is advanced. -/
theorem exec_datar_of_raised {c : Cause} (hs : s.run = .engine e) (hf : e.fault = 0)
    (h : (withAddr e (nextAddr e)).dataRead (addrOf e) = .raised (withAddr e (nextAddr e)) c) :
    exec .datar s = .next { s with run := .engine { withAddr e (nextAddr e) with fault := c.code } } :=
  exec_of_effectOf_raised hs hf ((effectOf_datar e).trans h)

end DatarInAnEngine

/-! ## The read buffer along a run (10_state.md R28) -/

/-- Instructions without DATAR keep the buffer. -/
theorem foldl_effectOf_readBuffer {cmds : List Cmd} {is : List Instr}
    (his : List.Forall₂ (fun c i => decodeCmd c = .ok i) cmds is) (hd : ∀ c ∈ cmds, c ≠ .word 0x400000)
    (e : EngineState) : (is.foldl (fun g i => (effectOf i g).engineAfter) e).readBuffer = e.readBuffer := by
  induction his generalizing e with
  | nil => rfl
  | @cons c i cs is hi _ ih =>
    have hne : i ≠ .datar := by
      rintro rfl
      exact hd c List.mem_cons_self (eq_word_of_decodeCmd hi (by simp))
    rw [List.foldl_cons, ih fun d hm => hd d (List.mem_cons_of_mem c hm), effectOf_keeps_readBuffer hne]

/-- An instruction that leaves an engine without fault began in one. -/
theorem faultFree_before_of_exec {i : Instr} {s t : State} {e f : EngineState} (hs : s.run = .engine e)
    (h : exec i s = .next t) (ht : t.run = .engine f) (hf : f.fault = 0) : e.fault = 0 := by
  obtain ⟨_, _, rfl⟩ | ⟨he, _⟩ := exec_engineAfter_cases hs h ht
  · exact hf
  · exact he

end Sys2Proof.Machine
end

section
/-! The claims about the data port (45_data_port.md section 1). -/

namespace Sys2Proof.Machine

open Sys2Proof.Claims

/-- Settles O31: CHR has a byte at the address. -/
theorem datarReadsPatternSpace : Obligations.DatarReadsPatternSpace := by
  intro s e b hs hf ha hb
  have hchr : (withAddr e (nextAddr e)).record.characterData[(addrOf e).toNat]? = some b := hb
  refine exec_datar_of_done hs hf ?_
  rw [EngineState.dataRead_pattern _ ha, hchr]
  rfl

/-- Settles O32: NT has a byte at the folded index. -/
theorem datarReadsNametableSpace : Obligations.DatarReadsNametableSpace := by
  intro s e hs hf hlo hhi hindex
  refine exec_datar_of_done hs hf ?_
  rw [EngineState.dataRead_nametable _ hlo hhi, Memory.read_of_lt (size := Config.ntSize) _ hindex]
  rfl

/-- Settles O33: the dispatch raises the fault on the advanced engine. -/
theorem datarInTheAliasRangeFaults : Obligations.DatarInTheAliasRangeFaults := by
  intro s e hs hf hlo hhi
  exact exec_datar_of_raised (c := .cvAliasRange) hs hf (by rw [EngineState.dataRead, regionOf_alias_range hlo hhi])

/-- Settles O34: the two ranges above 0x3EFF. -/
theorem datarAboveTheAliasRangeFaults : Obligations.DatarAboveTheAliasRangeFaults := by
  refine fun s e hs hf => ⟨fun hlo hhi => ?_, fun hlo => ?_⟩
  · refine exec_datar_of_raised (c := .cvPaletteRead) hs hf ?_
    rw [EngineState.dataRead, regionOf_palette_range hlo hhi]
  · refine exec_datar_of_raised (c := .cvAddrInvariant) hs hf ?_
    rw [EngineState.dataRead, regionOf_beyond_range hlo]

/-- Settles O35: past the character data there is no byte, and FourScreen's tables 2 and 3 lie past NT. -/
theorem datarOutsideTheStoreFaults : Obligations.DatarOutsideTheStoreFaults := by
  refine fun s e hs hf => ⟨fun ha hlen => ?_, fun hmode hlo hhi => ?_⟩
  · have hchr : (withAddr e (nextAddr e)).record.characterData[(addrOf e).toNat]? = none :=
      List.getElem?_eq_none hlen
    refine exec_datar_of_raised (c := .cvChrIndex) hs hf ?_
    rw [EngineState.dataRead_pattern _ ha, hchr]
    rfl
  · have hindex : Config.ntSize ≤ physicalIndex e.record.mirroring (addrOf e) := by
      have hlo' : 0x2800 ≤ (addrOf e).toNat := hlo
      have hhi' : (addrOf e).toNat ≤ 0x2FFF := hhi
      rw [hmode, physicalIndex, bankOf, Config.ntSize]
      omega
    refine exec_datar_of_raised (c := .cvNtIndex) hs hf ?_
    rw [EngineState.dataRead_nametable _ (by bv_omega) hhi, Memory.read_of_le _ hindex]
    rfl

/-- Settles O36: the dispatch fetches a byte or raises a fault, on the advanced engine. -/
theorem datarAlwaysAdvancesTheAddress : Obligations.DatarAlwaysAdvancesTheAddress := by
  intro s e hs hf
  obtain ⟨b, hd⟩ | ⟨c, hd, _⟩ := (withAddr e (nextAddr e)).dataRead_cases (addrOf e)
  · refine ⟨b, 0, ?_, fun h => absurd rfl h⟩
    rw [exec_datar_of_done hs hf hd, if_pos rfl, ← hf]
  · refine ⟨e.readBuffer, c.code, ?_, fun _ => rfl⟩
    rw [exec_datar_of_raised hs hf hd, if_neg c.code_ne_zero]

/-- Settles O37: the commands between keep the buffer, a completing DATAR outputs it, and what LOAD or a completing
DATAR leaves in it is known. -/
theorem latencyLaw : Obligations.LatencyLaw := by
  intro cmds s t u e f g hd hs hrun ht hu hug hg
  have hf : f.fault = 0 := faultFree_before_of_exec ht hu hug hg
  obtain ⟨he, is, his, rfl⟩ := RunsTo_engine hs hrun ht hf
  obtain ⟨hout, _⟩ := datar_outputs_old_and_fetches ht hu hug hg
  rw [foldl_effectOf_readBuffer his hd] at hout
  refine ⟨hout, fun s₀ raw hs₀ h => load_clears_readBuffer hs₀ h hs, fun s₀ e₀ hs₀ h => ?_⟩
  obtain ⟨_, hchr, hnt⟩ := datar_outputs_old_and_fetches hs₀ h hs he
  exact ⟨hchr, fun ha => (hnt ha).symm⟩

/-- Settles O38: DATAW's effect is the fault. -/
theorem datawIsRefused : Obligations.DatawIsRefused :=
  fun _ _ _ hs hf => exec_of_effectOf_raised (c := .refDataWrite) hs hf rfl

end Sys2Proof.Machine
end

section
/-! SUPPORT. What the loader's further claims rest on: the checks of `parse` one after the other, the regions by their
lengths, and the fields of an image the answer depends on (41_cartridge_loader.md R102-R112). -/

namespace Sys2Proof.Machine

open Sys2Proof.Claims

/-! ## The checks in their order (R112) -/

/-- An image with the signature has its four bytes, so the signature check is one comparison. -/
theorem parse_eq (raw : List Byte) :
    parse raw =
      if raw.take 4 ≠ magic then .error .invalidFormat
      else if raw.length < 16 then .error .outOfBounds
      else if formatVersion raw ≠ 0 then .error .unsupportedFormat
      else if raw.length < regionEnd raw then .error .outOfBounds
      else .ok (recordOf raw) := by
  have hcheck : (raw.length < 4 ∨ raw.take 4 ≠ magic) ↔ raw.take 4 ≠ magic := by
    refine or_iff_right_of_imp fun hlen h => ?_
    have h4 : (raw.take 4).length = 4 := by rw [h]; rfl
    rw [List.length_take] at h4
    omega
  rw [parse, if_congr hcheck rfl rfl]
  rfl

/-! ## The regions by their lengths (R105, R107) -/

theorem recordOf_programCode (raw : List Byte) :
    (recordOf raw).programCode = (raw.drop (prgStart raw)).take (prgLen raw) := by
  change slice raw (prgStart raw) (chrStart raw) = _
  rw [slice, chrStart, Nat.add_sub_cancel_left]

theorem recordOf_characterData (raw : List Byte) :
    (recordOf raw).characterData = (raw.drop (chrStart raw)).take (chrLen raw) := by
  change slice raw (chrStart raw) (regionEnd raw) = _
  rw [slice, regionEnd, Nat.add_sub_cancel_left]

theorem recordOf_programCode_length {raw : List Byte} (h : regionEnd raw ≤ raw.length) :
    (recordOf raw).programCode.length = prgLen raw := by
  rw [regionEnd, chrStart] at h
  rw [recordOf_programCode, List.length_take, List.length_drop]
  omega

theorem recordOf_characterData_length {raw : List Byte} (h : regionEnd raw ≤ raw.length) :
    (recordOf raw).characterData.length = chrLen raw := by
  rw [regionEnd] at h
  rw [recordOf_characterData, List.length_take, List.length_drop]
  omega

/-- A record is an image's when each of its four fields is. -/
theorem eq_recordOf_iff {raw : List Byte} {r : CartridgeRecord} :
    r = recordOf raw ↔
      r.programCode = (raw.drop (prgStart raw)).take (prgLen raw) ∧
      r.characterData = (raw.drop (chrStart raw)).take (chrLen raw) ∧
      r.mapperId = headerMapperId raw ∧ r.mirroring = headerMirroring raw := by
  rw [← recordOf_programCode, ← recordOf_characterData]
  constructor
  · rintro rfl
    exact ⟨rfl, rfl, rfl, rfl⟩
  · obtain ⟨code, data, id, m⟩ := r
    rintro ⟨rfl, rfl, rfl, rfl⟩
    rfl

/-! ## The fields the answer depends on -/

/-- Two images with the same header fields are parsed alike when the bytes from the program data on are the same, those
of the second `k` further on. -/
theorem parse_congr_shifted {raw raw' : List Byte} {k : Nat} (hlen : raw'.length = raw.length + k)
    (hshort : raw.length < 16 → k = 0) (hmagic : raw'.take 4 = raw.take 4)
    (hversion : formatVersion raw' = formatVersion raw) (hprgLen : prgLen raw' = prgLen raw)
    (hchrLen : chrLen raw' = chrLen raw) (hmapper : headerMapperId raw' = headerMapperId raw)
    (hmirroring : headerMirroring raw' = headerMirroring raw) (hprg : prgStart raw' = prgStart raw + k)
    (hdata : raw'.drop (prgStart raw') = raw.drop (prgStart raw)) : parse raw' = parse raw := by
  have hrecord : recordOf raw' = recordOf raw := by
    refine eq_recordOf_iff.mpr ⟨?_, ?_, hmapper, hmirroring⟩
    · rw [recordOf_programCode, hdata, hprgLen]
    · rw [recordOf_characterData, chrStart, chrStart, ← List.drop_drop, ← List.drop_drop, hdata, hprgLen, hchrLen]
  have hend : raw'.length < regionEnd raw' ↔ raw.length < regionEnd raw := by
    rw [regionEnd, regionEnd, chrStart, chrStart, hprg, hprgLen, hchrLen]
    omega
  have h16 : raw'.length < 16 ↔ raw.length < 16 := by omega
  rw [parse_eq, parse_eq, hmagic, hversion, hrecord]
  simp only [h16, hend]

theorem headerByte_set_ne {i j : Nat} (h : i ≠ j) (raw : List Byte) (v : Byte) :
    headerByte (raw.set i v) j = headerByte raw j := by
  rw [headerByte, headerByte, List.getD_eq_getElem?_getD, List.getElem?_set_ne h, ← List.getD_eq_getElem?_getD]

theorem headerByte_set_self {i : Nat} {raw : List Byte} (h : i < raw.length) (v : Byte) :
    headerByte (raw.set i v) i = v := by
  rw [headerByte, List.getD_eq_getElem?_getD, List.getElem?_set_self h]
  rfl

/-- Changing one of header bytes 6 to 15 matters only by what it changes of the version, the mapper id, the mirroring
and the trainer bit. -/
theorem parse_set_header {raw : List Byte} {i : Nat} {v : Byte} (hlo : 6 ≤ i) (hhi : i < 16)
    (hversion : formatVersion (raw.set i v) = formatVersion raw)
    (hmapper : headerMapperId (raw.set i v) = headerMapperId raw)
    (hmirroring : headerMirroring (raw.set i v) = headerMirroring raw)
    (hprg : prgStart (raw.set i v) = prgStart raw) : parse (raw.set i v) = parse raw := by
  have h4 : headerByte (raw.set i v) 4 = headerByte raw 4 := headerByte_set_ne (by omega) raw v
  have h5 : headerByte (raw.set i v) 5 = headerByte raw 5 := headerByte_set_ne (by omega) raw v
  have hbefore : i < prgStart raw := by
    rw [prgStart, Config.headerSize]
    omega
  refine parse_congr_shifted (k := 0) List.length_set (fun _ => rfl) (List.take_set_of_le (by omega)) hversion
    (by rw [prgLen, h4, prgLen]) (by rw [chrLen, h5, chrLen]) hmapper hmirroring hprg ?_
  rw [hprg, List.drop_set_of_lt hbefore]

/-- Byte 6 bit 1 is none of the trainer, mirroring and mapper bits (R106, R108, R109). -/
theorem byte6_fields (b : Byte) :
    b.getLsbD 0 = (b &&& 0xFD).getLsbD 0 ∧ b.getLsbD 2 = (b &&& 0xFD).getLsbD 2 ∧
      b.getLsbD 3 = (b &&& 0xFD).getLsbD 3 ∧ b >>> 4 = (b &&& 0xFD) >>> 4 := by
  revert b; decide

/-- Byte 7 bits 3:2 are none of the version and mapper bits (R104, R109). -/
theorem byte7_fields (b : Byte) :
    (b >>> versionShift) &&& 0b11#8 = ((b &&& 0xF3) >>> versionShift) &&& 0b11#8 ∧
      b &&& 0xF0#8 = (b &&& 0xF3) &&& 0xF0#8 := by
  revert b; decide

/-- An accepted image stays accepted with bytes behind its regions (R107). -/
theorem parse_append {raw : List Byte} {r : CartridgeRecord} (h : parse raw = .ok r) (extra : List Byte) :
    parse (raw ++ extra) = .ok r := by
  obtain ⟨hmagic, h16, hversion, hend, rfl⟩ := parse_eq_ok_iff.mp h
  have hsize : Config.headerSize = 16 := rfl
  have hbyte {i : Nat} (hi : i < 16) : headerByte (raw ++ extra) i = headerByte raw i := by
    rw [headerByte, headerByte, List.getD_append _ _ _ _ (by omega)]
  have hslice {i j : Nat} (hij : i ≤ j) (hj : j ≤ raw.length) : slice (raw ++ extra) i j = slice raw i j := by
    rw [slice, slice, List.drop_append_of_le_length (by omega), List.take_append_of_le_length]
    rw [List.length_drop]
    omega
  have hprg : prgStart (raw ++ extra) = prgStart raw := by rw [prgStart, hbyte (by decide), prgStart]
  have hchr : chrStart (raw ++ extra) = chrStart raw := by
    rw [chrStart, hprg, prgLen, hbyte (by decide), chrStart, prgLen]
  have hlast : regionEnd (raw ++ extra) = regionEnd raw := by
    rw [regionEnd, hchr, chrLen, hbyte (by decide), regionEnd, chrLen]
  have hmapper : headerMapperId (raw ++ extra) = headerMapperId raw := by
    rw [headerMapperId, hbyte (by decide), hbyte (by decide), headerMapperId]
  have hmirroring : headerMirroring (raw ++ extra) = headerMirroring raw := by
    rw [headerMirroring, hbyte (by decide), headerMirroring]
  have hchrEnd := chrStart_le_regionEnd raw
  refine parse_eq_ok_iff.mpr ⟨?_, ?_, ?_, ?_, ?_⟩
  · rw [List.take_append_of_le_length (by omega), hmagic]
  · rw [List.length_append]
    omega
  · rw [formatVersion, hbyte (by decide)]
    exact hversion
  · rw [hlast, List.length_append]
    omega
  · rw [recordOf, recordOf, hprg, hchr, hlast, hslice (prgStart_le_chrStart raw) (by omega), hslice hchrEnd hend,
      hmapper, hmirroring]

/-! ## Images written as a header and what follows -/

/-- Without the trainer bit the program data begins right behind the header (R106). -/
theorem prgStart_headerOf_append (b4 b5 b7 : Byte) (payload : List Byte) {b6 : Byte} (h : b6.getLsbD 2 = false) :
    prgStart (headerOf b4 b5 b6 b7 ++ payload) = 16 := by
  change 16 + (if b6.getLsbD 2 then 512 else 0) = 16
  rw [h]
  rfl

/-- A header without trainer bit and with version 0, followed by exactly the pages it counts, is accepted. -/
theorem parse_headerOf_append {b4 b5 b6 b7 : Byte} {code data : List Byte} (htrainer : b6.getLsbD 2 = false)
    (hversion : (b7 >>> versionShift) &&& 0b11#8 = 0) (hcode : code.length = b4.toNat * 16384)
    (hdata : data.length = b5.toNat * 8192) :
    parse (headerOf b4 b5 b6 b7 ++ (code ++ data)) =
      .ok { programCode := code
            characterData := data
            mapperId := (b7 &&& 0xF0#8) ||| (b6 >>> 4)
            mirroring := if b6.getLsbD 3 then .fourScreen else if b6.getLsbD 0 then .vertical else .horizontal } := by
  have hprg := prgStart_headerOf_append b4 b5 b7 (code ++ data) htrainer
  have hprgLen : prgLen (headerOf b4 b5 b6 b7 ++ (code ++ data)) = code.length := hcode.symm
  have hchrLen : chrLen (headerOf b4 b5 b6 b7 ++ (code ++ data)) = data.length := hdata.symm
  have hlen : (headerOf b4 b5 b6 b7 ++ (code ++ data)).length = 16 + (code.length + data.length) := by
    rw [List.length_append, List.length_append]
    rfl
  refine parse_eq_ok_iff.mpr ⟨rfl, ?_, hversion, ?_, ?_⟩
  · rw [hlen]
    exact Nat.le_add_right 16 _
  · rw [regionEnd, chrStart, hprg, hprgLen, hchrLen, hlen, Nat.add_assoc]
  · refine eq_recordOf_iff.mpr ⟨?_, ?_, rfl, rfl⟩
    · rw [hprg, hprgLen]
      exact List.take_left.symm
    · rw [chrStart, hprg, hprgLen, hchrLen, ← List.drop_drop]
      change data = ((code ++ data).drop code.length).take data.length
      rw [List.drop_left, List.take_length]

/-- Setting the trainer bit changes no other field of byte 6 (R106, R108, R109). -/
theorem byte6_or_trainer (b : Byte) :
    (b ||| 0x04).getLsbD 2 = true ∧ (b ||| 0x04).getLsbD 0 = b.getLsbD 0 ∧ (b ||| 0x04).getLsbD 3 = b.getLsbD 3 ∧
      (b ||| 0x04) >>> 4 = b >>> 4 := by
  revert b; decide

/-! ## The serializer (95_test_vectors.md S16) -/

/-- Byte 6 as the serializer writes it. -/
def serializedByte6 (id : Byte) (m : Mirroring) : Byte := ((id &&& 0x0F#8) <<< 4) ||| mirroringBits m

/-- No trainer bit, the mirroring's bits, the mapper id's low digit. -/
theorem serializedByte6_fields (id : Byte) (m : Mirroring) :
    (serializedByte6 id m).getLsbD 2 = false ∧
    (if (serializedByte6 id m).getLsbD 3 then Mirroring.fourScreen
      else if (serializedByte6 id m).getLsbD 0 then .vertical else .horizontal) = m ∧
    ((id &&& 0xF0#8) &&& 0xF0#8) ||| (serializedByte6 id m >>> 4) = id := by
  cases m <;> (revert id; decide)

/-- Byte 7 as the serializer writes it has version 0. -/
theorem serializedByte7_version (id : Byte) : ((id &&& 0xF0#8) >>> versionShift) &&& 0b11#8 = 0 := by
  revert id; decide

/-- The serialization is a header and the record's pages. -/
theorem serialize_eq (r : CartridgeRecord) :
    serialize r =
      headerOf (BitVec.ofNat 8 (r.programCode.length / Config.prgPage))
        (BitVec.ofNat 8 (r.characterData.length / Config.chrPage)) (serializedByte6 r.mapperId r.mirroring)
        (r.mapperId &&& 0xF0#8) ++ (r.programCode ++ r.characterData) := by
  rw [← List.append_assoc]
  rfl

/-- A count of whole pages fits its header byte. -/
theorem pageCount_toNat {len page n : Nat} (hpage : 0 < page) (hn : n ≤ 255) (h : len = n * page) :
    (BitVec.ofNat 8 (len / page)).toNat = n := by
  rw [h, Nat.mul_div_cancel n hpage, BitVec.toNat_ofNat]
  omega

end Sys2Proof.Machine
end

section
/-! The claims about the loader's checks, its regions and its serializer (41_cartridge_loader.md sections 1 to 3,
95_test_vectors.md S16). -/

namespace Sys2Proof.Machine

open Sys2Proof.Claims

/-- Settles O39: the accepted images, and the four fields of their records one by one. -/
theorem parseAcceptsExactly : Obligations.ParseAcceptsExactly := by
  intro raw r b prgStart' chrStart' last
  rw [parse_eq_ok_iff, eq_recordOf_iff]
  rfl

/-- Settles O40, check by check. -/
theorem parseReportsTheFirstFailingCheck : Obligations.ParseReportsTheFirstFailingCheck := by
  intro raw b last badMagic short badVersion
  have hparse : parse raw =
      if badMagic then .error .invalidFormat
      else if short then .error .outOfBounds
      else if badVersion then .error .unsupportedFormat
      else if raw.length < last then .error .outOfBounds
      else .ok (recordOf raw) := parse_eq raw
  rw [hparse]
  split_ifs with hmagic hshort hversion hend
  · simp [hmagic]
  · simp [hmagic, hshort]
  · simp [hmagic, hshort, hversion]
  · simp [hmagic, hshort, hversion, hend]
  · simp [hmagic, hshort, hversion, hend]

/-- Settles O42: with the trainer bit everything from the program data on lies 512 bytes further on. -/
theorem trainerIsSkipped : Obligations.TrainerIsSkipped := by
  intro b4 b5 b6 b7 trainer payload htrainer hlen
  obtain ⟨hbit2, hbit0, hbit3, hhigh⟩ := byte6_or_trainer b6
  have hprg : prgStart (headerOf b4 b5 b6 b7 ++ payload) = 16 := prgStart_headerOf_append b4 b5 b7 payload htrainer
  have hprg' : prgStart (headerOf b4 b5 (b6 ||| 0x04) b7 ++ trainer ++ payload) = 528 := prgStart_of_trainer hbit2
  refine parse_congr_shifted (k := 512) ?_ (fun h => ?_) rfl rfl rfl rfl ?_ ?_ ?_ ?_
  · simp only [List.length_append, hlen, headerOf, List.length_cons, List.length_nil]
    omega
  · simp only [List.length_append, headerOf, List.length_cons, List.length_nil] at h
    omega
  · exact congrArg ((b7 &&& 0xF0#8) ||| ·) hhigh
  · change (if (b6 ||| 0x04).getLsbD 3 then Mirroring.fourScreen
      else if (b6 ||| 0x04).getLsbD 0 then .vertical else .horizontal) = _
    rw [hbit3, hbit0]
    rfl
  · rw [hprg, hprg']
  · rw [hprg, hprg']
    change (trainer ++ payload).drop 512 = payload
    exact List.drop_left' hlen

/-- Settles O43: the four places of an image that no field of the record and no check looks at. -/
theorem undefinedContentIsIgnored : Obligations.UndefinedContentIsIgnored := by
  refine ⟨fun raw extra r h => parse_append h extra, fun raw i v hlo hhi => ?_, fun raw v hv => ?_, fun raw v hv => ?_⟩
  · have h6 := headerByte_set_ne (show i ≠ 6 by omega) raw v
    have h7 := headerByte_set_ne (show i ≠ 7 by omega) raw v
    exact parse_set_header (by omega) hhi (by rw [formatVersion, h7, formatVersion])
      (by rw [headerMapperId, h6, h7, headerMapperId]) (by rw [headerMirroring, h6, headerMirroring])
      (by rw [prgStart, h6, prgStart])
  · by_cases hlen : 6 < raw.length
    · have h6 : headerByte (raw.set 6 v) 6 = v := headerByte_set_self hlen v
      have h7 := headerByte_set_ne (show 6 ≠ 7 by decide) raw v
      have hv : v &&& 0xFD = headerByte raw 6 &&& 0xFD := hv
      obtain ⟨h0, h2, h3, hhigh⟩ := byte6_fields v
      obtain ⟨h0', h2', h3', hhigh'⟩ := byte6_fields (headerByte raw 6)
      rw [hv] at h0 h2 h3 hhigh
      exact parse_set_header (by decide) (by decide) (by rw [formatVersion, h7, formatVersion])
        (by rw [headerMapperId, h6, h7, hhigh, headerMapperId, hhigh'])
        (by rw [headerMirroring, h6, h0, h3, headerMirroring, h0', h3'])
        (by rw [prgStart, h6, h2, prgStart, h2'])
    · rw [List.set_eq_of_length_le (by omega)]
  · by_cases hlen : 7 < raw.length
    · have h6 := headerByte_set_ne (show 7 ≠ 6 by decide) raw v
      have h7 : headerByte (raw.set 7 v) 7 = v := headerByte_set_self hlen v
      have hv : v &&& 0xF3 = headerByte raw 7 &&& 0xF3 := hv
      obtain ⟨hversion, hhigh⟩ := byte7_fields v
      obtain ⟨hversion', hhigh'⟩ := byte7_fields (headerByte raw 7)
      rw [hv] at hversion hhigh
      exact parse_set_header (by decide) (by decide) (by rw [formatVersion, h7, hversion, formatVersion, hversion'])
        (by rw [headerMapperId, h6, h7, hhigh, headerMapperId, hhigh'])
        (by rw [headerMirroring, h6, headerMirroring]) (by rw [prgStart, h6, prgStart])
    · rw [List.set_eq_of_length_le (by omega)]

/-- Settles O44: the page counts are header bytes, and the regions are present in full. -/
theorem parsedRegionsAreWholePages : Obligations.ParsedRegionsAreWholePages := by
  intro raw r h
  obtain ⟨_, _, _, hend, rfl⟩ := parse_eq_ok_iff.mp h
  exact ⟨(headerByte raw 4).toNat, (headerByte raw 5).toNat, Nat.le_of_lt_succ (headerByte raw 4).isLt,
    Nat.le_of_lt_succ (headerByte raw 5).isLt, recordOf_programCode_length hend, recordOf_characterData_length hend⟩

/-- Settles O45: the serialized header passes the checks, and its fields and regions are the record's. -/
theorem parseOfSerializeIsTheRecord : Obligations.ParseOfSerializeIsTheRecord := by
  intro r prg chr hprg hchr hcode hdata
  have hprg' := pageCount_toNat (page := Config.prgPage) (by decide) hprg hcode
  have hchr' := pageCount_toNat (page := Config.chrPage) (by decide) hchr hdata
  obtain ⟨htrainer, hmirroring, hmapper⟩ := serializedByte6_fields r.mapperId r.mirroring
  rw [serialize_eq, parse_headerOf_append htrainer (serializedByte7_version r.mapperId) (by rw [hprg', hcode])
    (by rw [hchr', hdata]), hmirroring, hmapper]

end Sys2Proof.Machine
end

section
/-! SUPPORT. Changes of an engine that effects neither read nor undo: an effect carries such a change along
(10_state.md R31, R32, R35, R37, 43_control_register.md R151). -/

namespace Sys2Proof.Machine

open Sys2Proof.Claims

/-! ## A change that effects carry along -/

/-- A change of an engine that leaves alone what effects read, the step apart, and commutes with what they write, `ctrl`
apart. -/
structure Unread (g : EngineState → EngineState) : Prop where
  chr (e : EngineState) : (g e).record.characterData = e.record.characterData
  mirroring (e : EngineState) : (g e).record.mirroring = e.record.mirroring
  nt (e : EngineState) : (g e).nt = e.nt
  addrHi (e : EngineState) : (g e).addrHi = e.addrHi
  addrLo (e : EngineState) : (g e).addrLo = e.addrLo
  awaitingHigh (e : EngineState) : (g e).awaitingHigh = e.awaitingHigh
  readBuffer (e : EngineState) : (g e).readBuffer = e.readBuffer
  halves (e : EngineState) (hi lo : Byte) :
    g { e with addrHi := hi, addrLo := lo } = { g e with addrHi := hi, addrLo := lo }
  latch (e : EngineState) (b : Bool) : g { e with awaitingHigh := b } = { g e with awaitingHigh := b }
  buffer (e : EngineState) (b : Byte) : g { e with readBuffer := b } = { g e with readBuffer := b }
  fault (e : EngineState) (b : Byte) : g { e with fault := b } = { g e with fault := b }

/-- A command's end with a change of the engine it leaves, the output as before. -/
def CommandEnd.map (g : EngineState → EngineState) : CommandEnd → CommandEnd
  | .done e out => .done (g e) out
  | .raised e c => .raised (g e) c

section CarriedAlong
variable {g : EngineState → EngineState} (hg : Unread g)
include hg

theorem Unread.engineAfter (r : CommandEnd) : (r.map g).engineAfter = g r.engineAfter := by
  cases r with
  | done e out => rfl
  | raised e c => exact (hg.fault e c.code).symm

theorem Unread.addrValue (e : EngineState) : (g e).addrValue = e.addrValue := by
  rw [EngineState.addrValue, hg.addrHi, hg.addrLo, EngineState.addrValue]

theorem Unread.addrIncrement (e : EngineState) (step : Byte) :
    (g e).addrIncrement step = g (e.addrIncrement step) := by
  rw [EngineState.addrIncrement_eq, EngineState.addrIncrement_eq, hg.addrHi, hg.addrLo]
  exact (hg.halves e _ _).symm

theorem Unread.writeAddr (e : EngineState) (b : Byte) : (g e).writeAddr b = g (e.writeAddr b) := by
  rw [EngineState.writeAddr_eq, EngineState.writeAddr_eq, hg.addrHi, hg.addrLo, hg.awaitingHigh]
  exact (congrArg (fun f => { f with awaitingHigh := !e.awaitingHigh }) (hg.halves e _ _).symm).trans
    (hg.latch (withAddr e _) _).symm

theorem Unread.bufferedRead (e : EngineState) (fetched : Option Byte) (c : Cause) :
    (g e).bufferedRead fetched c = (e.bufferedRead fetched c).map g := by
  cases fetched with
  | none => rfl
  | some b =>
    exact congrArg₂ (fun f v => CommandEnd.done f (some (.byte v))) (hg.buffer e b).symm (hg.readBuffer e)

theorem Unread.dataRead (e : EngineState) (a : Half) : (g e).dataRead a = (e.dataRead a).map g := by
  unfold EngineState.dataRead
  cases regionOf a with
  | pattern =>
    dsimp only [EngineState.patternRead]
    rw [hg.chr, hg.bufferedRead]
  | nametable =>
    dsimp only [EngineState.nametableRead]
    rw [hg.nt, hg.mirroring, hg.bufferedRead]
  | _ => rfl

/-- Every instruction but CTRLW carries the change along, where the step is the same. -/
theorem Unread.effectOf {i : Instr} {e : EngineState} (hi : ∀ b, i ≠ .ctrlw b)
    (hstep : incrementStep (g e).ctrl = incrementStep e.ctrl) :
    Machine.effectOf i (g e) = (Machine.effectOf i e).map g := by
  cases i with
  | ctrlw b => exact absurd rfl (hi b)
  | addrw b => exact congrArg (CommandEnd.done · none) (hg.writeAddr e b)
  | datar => rw [Machine.effectOf, Machine.effectOf, hstep, hg.addrIncrement, hg.addrValue, hg.dataRead]
  | latrst => exact congrArg (CommandEnd.done · none) (hg.latch e true).symm
  | addrr => exact congrArg (fun v => CommandEnd.done (g e) (some (.half v))) (hg.addrValue e)
  | incq => exact congrArg (fun v => CommandEnd.done (g e) (some (.byte v))) hstep
  | addrinc1 => exact congrArg (CommandEnd.done · none) (hg.addrIncrement e 1)
  | addrinc32 => exact congrArg (CommandEnd.done · none) (hg.addrIncrement e 32)
  | mirror a =>
    rw [Machine.effectOf, Machine.effectOf, hg.mirroring]
    split_ifs <;> rfl
  | _ => rfl

end CarriedAlong

/-! ## The control register but for its increment bit -/

/-- An engine with another control register. -/
def EngineState.withCtrl (c : Byte) (e : EngineState) : EngineState := { e with ctrl := c }

theorem unread_withCtrl (c : Byte) : Unread (EngineState.withCtrl c) where
  chr _ := rfl
  mirroring _ := rfl
  nt _ := rfl
  addrHi _ := rfl
  addrLo _ := rfl
  awaitingHigh _ := rfl
  readBuffer _ := rfl
  halves _ _ _ := rfl
  latch _ _ := rfl
  buffer _ _ := rfl
  fault _ _ := rfl

/-- Every instruction but CTRLW keeps `ctrl`. -/
theorem effectOf_keeps_ctrl {i : Instr} (hi : ∀ b, i ≠ .ctrlw b) (e : EngineState) :
    (effectOf i e).engineAfter.ctrl = e.ctrl := by
  have h : effectOf i e = (effectOf i e).map (EngineState.withCtrl e.ctrl) :=
    (unread_withCtrl e.ctrl).effectOf (e := e) hi rfl
  rw [h, (unread_withCtrl e.ctrl).engineAfter]
  rfl

/-- The step depends on bit 2 of `ctrl` alone. -/
theorem incrementStep_congr {c d : Byte} (h : c &&& 0x04 = d &&& 0x04) : incrementStep c = incrementStep d := by
  rw [incrementStep_eq, h, incrementStep_eq]

/-! ## What no command reads -/

/-- An engine with the PAL, OAM, OAM2, program code and mapper id of another. -/
def EngineState.withUnreadOf (f e : EngineState) : EngineState :=
  { e with pal := f.pal, oam := f.oam, oam2 := f.oam2,
           record := { e.record with programCode := f.record.programCode, mapperId := f.record.mapperId } }

theorem EngineState.sameButUnread_iff {e f : EngineState} : e.sameButUnread f ↔ f = EngineState.withUnreadOf f e :=
  Iff.rfl

theorem unread_withUnreadOf (f : EngineState) : Unread (EngineState.withUnreadOf f) where
  chr _ := rfl
  mirroring _ := rfl
  nt _ := rfl
  addrHi _ := rfl
  addrLo _ := rfl
  awaitingHigh _ := rfl
  readBuffer _ := rfl
  halves _ _ _ := rfl
  latch _ _ := rfl
  buffer _ _ := rfl
  fault _ _ := rfl

/-- No instruction reads it, CTRLW too. -/
theorem effectOf_withUnreadOf (i : Instr) (e f : EngineState) :
    effectOf i (EngineState.withUnreadOf f e) = (effectOf i e).map (EngineState.withUnreadOf f) := by
  by_cases hi : ∀ b, i ≠ .ctrlw b
  · exact (unread_withUnreadOf f).effectOf hi rfl
  · simp only [not_forall, ne_eq, not_not] at hi
    obtain ⟨b, rfl⟩ := hi
    rfl

/-! ## Two runs that differ in it -/

section TwoRuns
variable {s t : State} (h : s.sameButUnread t)
include h

/-- The two shapes of the runs agree. -/
theorem State.sameButUnread_run :
    (∃ f, s.run = .noEngine f ∧ t.run = .noEngine f) ∨
      ∃ e f, s.run = .engine e ∧ t.run = .engine f ∧ e.sameButUnread f := by
  obtain ⟨_, _, _, _, _, hrun⟩ := h
  cases hs : s.run with
  | noEngine f =>
    cases ht : t.run with
    | noEngine f' =>
      rw [hs, ht] at hrun
      exact .inl ⟨f, rfl, congrArg RunState.noEngine hrun.symm⟩
    | engine e' => rw [hs, ht] at hrun; exact hrun.elim
  | engine e =>
    cases ht : t.run with
    | noEngine f' => rw [hs, ht] at hrun; exact hrun.elim
    | engine e' =>
      rw [hs, ht] at hrun
      exact .inr ⟨e, e', rfl, rfl, hrun⟩

theorem State.sameButUnread_noEngine {f : Byte} (hs : s.run = .noEngine f) : t.run = .noEngine f := by
  obtain ⟨f', hs', ht⟩ | ⟨e, _, hs', _⟩ := State.sameButUnread_run h
  · rw [ht, ← hs', hs]
  · cases hs.symm.trans hs'

theorem State.sameButUnread_engine {e : EngineState} (hs : s.run = .engine e) :
    ∃ f, t.run = .engine f ∧ e.sameButUnread f := by
  obtain ⟨_, hs', _⟩ | ⟨e', f, hs', ht, hef⟩ := State.sameButUnread_run h
  · cases hs.symm.trans hs'
  · obtain rfl := RunState.engine.inj (hs.symm.trans hs')
    exact ⟨f, ht, hef⟩

theorem State.sameButUnread_faultCode : t.run.faultCode = s.run.faultCode := by
  obtain ⟨f, hs, ht⟩ | ⟨e, f, hs, ht, hef⟩ := State.sameButUnread_run h
  · rw [hs, ht]
  · rw [hs, ht, RunState.faultCode_engine, RunState.faultCode_engine, EngineState.sameButUnread_iff.mp hef]
    rfl

theorem State.sameButUnread_raise (c : Cause) : (s.raise c).sameButUnread (t.raise c) := by
  obtain ⟨hcursor, hpending, houtputs, haddr, hnt, _⟩ := id h
  refine ⟨hcursor, hpending, houtputs, haddr, hnt, ?_⟩
  obtain ⟨f, hs, ht⟩ | ⟨e, f, hs, ht, hef⟩ := State.sameButUnread_run h
  · rw [State.raise_run, State.raise_run, hs, ht]
    rfl
  · rw [State.raise_run, State.raise_run, hs, ht, EngineState.sameButUnread_iff.mp hef]
    rfl

theorem State.sameButUnread_finish (f : EngineState) (r : CommandEnd) :
    (s.finish r).sameButUnread (t.finish (r.map (EngineState.withUnreadOf f))) := by
  obtain ⟨hcursor, hpending, houtputs, haddr, hnt, _⟩ := h
  cases r with
  | done e out => exact ⟨hcursor, hpending, congrArg (addOutput · out) houtputs, haddr, hnt, rfl⟩
  | raised e c => exact ⟨hcursor, hpending, houtputs, haddr, hnt, rfl⟩

theorem State.sameButUnread_advance : s.advance.sameButUnread t.advance := by
  obtain ⟨hcursor, hpending, houtputs, haddr, hnt, hrun⟩ := h
  exact ⟨congrArg (· + 1) hcursor, congrArg List.tail hpending, houtputs, haddr, hnt, hrun⟩

/-- LOAD constructs engines that differ at most in it. -/
theorem State.sameButUnread_construct (r : CartridgeRecord) :
    ({ s with run := .engine (EngineState.construct r s.init) } : State).sameButUnread
      { t with run := .engine (EngineState.construct r t.init) } := by
  obtain ⟨hcursor, hpending, houtputs, haddr, hnt, _⟩ := h
  refine ⟨hcursor, hpending, houtputs, haddr, hnt, ?_⟩
  simp only [EngineState.sameButUnread, EngineState.construct, haddr, hnt]

theorem exec_sameButUnread {i : Instr} {u : State} (hu : exec i s = .next u) :
    ∃ v, exec i t = .next v ∧ u.sameButUnread v := by
  have hcursor : t.cursor = s.cursor := h.1
  obtain ⟨hf, rfl⟩ | ⟨hs, hi, rfl⟩ | ⟨e, hs, hf, rfl⟩ | ⟨raw, rfl, hs, hc, hload⟩ := exec_cases hu
  · exact ⟨t, exec_faulted (by rwa [State.sameButUnread_faultCode h]) i, h⟩
  · have ht := State.sameButUnread_noEngine h hs
    exact ⟨_, exec_noEngine_refused ht (by rwa [hcursor]), State.sameButUnread_raise h _⟩
  · obtain ⟨f, ht, hef⟩ := State.sameButUnread_engine h hs
    have hft : f.fault = 0 := by rw [hef]; exact hf
    have heffect : effectOf i f = (effectOf i e).map (EngineState.withUnreadOf f) := by
      rw [← effectOf_withUnreadOf, ← EngineState.sameButUnread_iff.mp hef]
    exact ⟨_, exec_engine ht hft i, by rw [heffect]; exact State.sameButUnread_finish h f _⟩
  · have hfirst := execLoad_first (State.sameButUnread_noEngine h hs) (hcursor.trans hc) raw
    obtain ⟨err, hp, rfl⟩ | ⟨r, hp, rfl⟩ := hload
    · exact ⟨_, hfirst.1 err hp, State.sameButUnread_raise h _⟩
    · exact ⟨_, hfirst.2 r hp, State.sameButUnread_construct h r⟩

theorem execIllegal_sameButUnread {u : State} (hu : execIllegal s = .next u) :
    ∃ v, execIllegal t = .next v ∧ u.sameButUnread v := by
  have hcode := State.sameButUnread_faultCode h
  obtain ⟨hf, rfl⟩ | ⟨hf, rfl⟩ := execIllegal_cases hu
  · exact ⟨t, execIllegal_faulted (by rwa [hcode]), h⟩
  · exact ⟨_, execIllegal_faultFree (by rwa [hcode]), State.sameButUnread_raise h _⟩

theorem runCommand_sameButUnread {c : Cmd} {u : State} (hu : runCommand c s = .next u) :
    ∃ v, runCommand c t = .next v ∧ u.sameButUnread v := by
  obtain ⟨i, hd, he⟩ | ⟨why, hd, he⟩ := runCommand_cases hu
  · rw [runCommand_of_decode hd]
    exact exec_sameButUnread h he
  · rw [runCommand_of_illegal hd]
    exact execIllegal_sameButUnread h he

end TwoRuns

end Sys2Proof.Machine
end

section
/-! The claims of noninterference (43_control_register.md, 10_state.md sections 4 and 5). -/

namespace Sys2Proof.Machine

/-- Settles O17: effects read `ctrl` by its step alone, and only CTRLW writes it, whatever it held. -/
theorem otherControlBitsHaveNoEffect : Obligations.OtherControlBitsHaveNoEffect := by
  intro i s t e e' c hs hc h ht
  obtain ⟨hf, rfl, rfl⟩ | ⟨hf, rfl, rfl⟩ := exec_engineAfter_cases hs h ht
  · exact ⟨c, hc, exec_faulted (by exact hf) i⟩
  · have hexec := exec_engine (s := { s with run := .engine (e.withCtrl c) }) (e := e.withCtrl c) rfl hf i
    by_cases hi : ∀ b, i ≠ .ctrlw b
    · have heffect := (unread_withCtrl c).effectOf (e := e) hi (incrementStep_congr hc)
      refine ⟨c, by rw [effectOf_keeps_ctrl hi, hc], hexec.trans ?_⟩
      rw [heffect]
      cases effectOf i e <;> rfl
    · simp only [not_forall, ne_eq, not_not] at hi
      obtain ⟨b, rfl⟩ := hi
      exact ⟨b, rfl, hexec⟩

/-- Settles O51: the command is the same in both runs, and its effect carries the difference along. -/
theorem unreadStateCannotBeObserved : Obligations.UnreadStateCannotBeObserved := by
  intro s t s' h hs
  obtain ⟨c, rest, u, hp, hw, hu, rfl⟩ := step_cases hs
  obtain ⟨v, hv, huv⟩ := runCommand_sameButUnread h hu
  have hpending : t.pending = c :: rest := h.2.1.trans hp
  refine ⟨v.advance, ?_, State.sameButUnread_advance huv⟩
  rw [step_of_pending hpending hw hv]
  obtain ⟨hcursor, hvp, _⟩ := runCommand_sequencing hv
  rw [State.advance, hcursor, hvp, hpending, List.tail_cons]

end Sys2Proof.Machine
end

section
/-! SUPPORT. What the invariant's claim rests on: no effect leaves the invariant, and the shape of a run after a command
(10_state.md R21, R27, 60_exceptions.md R201). -/

namespace Sys2Proof.Machine

open Sys2Proof.Claims

/-! ## The invariant of an engine through an effect -/

/-- The invariant of a command's end: of the engine it leaves and of its output. -/
def CommandEnd.Inv : CommandEnd → Prop
  | .done e out => e.Inv ∧ ∀ o, out = some o → o.Inv
  | .raised e c => EngineState.Inv { e with fault := c.code }

theorem CommandEnd.Inv.engineAfter {r : CommandEnd} (h : r.Inv) : r.engineAfter.Inv := by
  cases r with
  | done e out => exact h.1
  | raised e c => exact h

theorem CommandEnd.Inv.outputs {r : CommandEnd} (h : r.Inv) {s : State} (hs : ∀ o ∈ s.outputs, o.Inv) :
    ∀ o ∈ (s.finish r).outputs, o.Inv := by
  cases r with
  | raised e c => exact hs
  | done e out =>
    cases out with
    | none => exact hs
    | some v =>
      intro o ho
      obtain ho | ho := List.mem_append.mp ho
      · exact hs o ho
      · rw [List.mem_singleton.mp ho]
        exact h.2 v rfl

theorem CommandEnd.inv_done_none {e : EngineState} (h : e.Inv) : (CommandEnd.done e none).Inv := ⟨h, by simp⟩

theorem CommandEnd.inv_done_some {e : EngineState} {o : Output} (h : e.Inv) (ho : o.Inv) :
    (CommandEnd.done e (some o)).Inv :=
  ⟨h, fun _ ho' => by rwa [← Option.some.inj ho']⟩

/-- A masked address is 14 bits wide. -/
theorem EngineState.Inv.withAddr_masked {e : EngineState} (h : e.Inv) (v : Half) : (withAddr e (v &&& 0x3FFF)).Inv :=
  ⟨high_le_of_masked v, h.2⟩

theorem EngineState.Inv.withFault {e : EngineState} (h : e.Inv) {f : Byte} (hf : f ∈ engineFaultCodes) :
    EngineState.Inv { e with fault := f } := by
  obtain ⟨hhi, hrecord, hnt, hpal, hoam, hoam2, _⟩ := h
  exact ⟨hhi, hrecord, hnt, hpal, hoam, hoam2, hf⟩

theorem EngineState.bufferedRead_raised {e f : EngineState} {fetched : Option Byte} {c d : Cause}
    (h : e.bufferedRead fetched c = .raised f d) : d = c := by
  cases fetched with
  | none =>
    cases h
    rfl
  | some b => cases h

theorem regionOf_ne_beyond {a : Half} (h : a ≤ 0x3FFF) : regionOf a ≠ .beyond := by
  unfold regionOf
  split_ifs <;> simp

/-- At an address of 14 bits the dispatch never raises CV_ADDR_INVARIANT (45_data_port.md R185). -/
theorem EngineState.dataRead_cause {e f : EngineState} {a : Half} {c : Cause} (ha : a ≤ 0x3FFF)
    (h : e.dataRead a = .raised f c) : c ≠ .cvAddrInvariant := by
  unfold EngineState.dataRead at h
  cases hreg : regionOf a with
  | pattern =>
    rw [hreg] at h
    rw [EngineState.bufferedRead_raised h]
    decide
  | nametable =>
    rw [hreg] at h
    rw [EngineState.bufferedRead_raised h]
    decide
  | aliasRange =>
    rw [hreg] at h
    cases h
    decide
  | palette =>
    rw [hreg] at h
    cases h
    decide
  | beyond => exact absurd hreg (regionOf_ne_beyond ha)

/-- Of DATAR's causes only CV_ADDR_INVARIANT is no code of an engine. -/
theorem datar_code_mem {c : Cause}
    (h : c ∈ [Cause.cvAliasRange, .cvPaletteRead, .cvAddrInvariant, .cvChrIndex, .cvNtIndex])
    (hc : c ≠ .cvAddrInvariant) : c.code ∈ engineFaultCodes := by
  revert h hc
  cases c <;> decide

/-- Every instruction keeps the invariant of an engine. -/
theorem effectOf_inv (i : Instr) {e : EngineState} (h : e.Inv) : (effectOf i e).Inv := by
  cases i with
  | ctrlw b => exact CommandEnd.inv_done_none h
  | addrw b =>
    rw [effectOf, EngineState.writeAddr_eq]
    exact CommandEnd.inv_done_none (h.withAddr_masked _)
  | dataw b => exact h.withFault (by decide)
  | datar =>
    rw [effectOf_datar]
    have hnext : (withAddr e (nextAddr e)).Inv := h.withAddr_masked _
    obtain ⟨b, hd⟩ | ⟨c, hd, hc⟩ := (withAddr e (nextAddr e)).dataRead_cases (addrOf e)
    · rw [hd]
      exact CommandEnd.inv_done_some hnext trivial
    · have hcause := EngineState.dataRead_cause (halves_le_of_high_le h.1 e.addrLo) hd
      rw [hd]
      exact hnext.withFault (datar_code_mem hc hcause)
  | latrst => exact CommandEnd.inv_done_none h
  | addrr => exact CommandEnd.inv_done_some h (halves_le_of_high_le h.1 e.addrLo)
  | incq => exact CommandEnd.inv_done_some h trivial
  | addrinc1 =>
    rw [effectOf, EngineState.addrIncrement_eq]
    exact CommandEnd.inv_done_none (h.withAddr_masked _)
  | addrinc32 =>
    rw [effectOf, EngineState.addrIncrement_eq]
    exact CommandEnd.inv_done_none (h.withAddr_masked _)
  | mirror a =>
    rw [effectOf]
    split_ifs with hdomain
    · simp only [inMirrorDomain, Bool.and_eq_true, decide_eq_true_eq] at hdomain
      obtain ⟨_, hrange, _⟩ := mirrorIndexRange e.record.mirroring a hdomain.1 hdomain.2
      exact CommandEnd.inv_done_some h (BitVec.le_trans hrange (by decide))
    · exact h.withFault (by decide)
  | load raw => exact h.withFault (by decide)

/-! ## The invariant of a constructed engine -/

/-- A parsed record holds whole pages, at most 255 of each kind (R105). -/
theorem record_inv_of_parse {raw : List Byte} {r : CartridgeRecord} (h : parse raw = .ok r) : r.Inv := by
  obtain ⟨prg, chr, hprg, hchr, hcode, hdata⟩ := parsedRegionsAreWholePages raw r h
  rw [CartridgeRecord.Inv, hcode, hdata]
  omega

/-- Any INIT_ADDR is 14 bits wide (R25). -/
theorem construct_inv {r : CartridgeRecord} {p : InitParams} (hr : r.Inv) (hp : p.Inv) :
    (EngineState.construct r p).Inv := by
  obtain ⟨hnt, hpal, hoam, hoam2⟩ := hp
  refine ⟨?_, hr, hnt, hpal, hoam, hoam2, List.mem_cons_self⟩
  have haddr : p.addr.toNat < 2 ^ 14 := p.addr.isLt
  change ((p.addr.setWidth 16).extractLsb' 8 8).toNat ≤ 0x3F
  rw [BitVec.extractLsb'_toNat, BitVec.toNat_setWidth_of_le (by decide), Nat.shiftRight_eq_div_pow]
  omega

/-! ## The invariant of a run through a command -/

section AfterACommand
variable {s u : State} (hinit : u.init = s.init) (hs : s.Inv)
include hinit hs

/-- A command that leaves no engine leaves a fault. -/
theorem advance_inv_of_noEngine {f : Byte} (hu : u.run = .noEngine f) (hf : f ∈ noEngineFaultCodes) (hf0 : f ≠ 0)
    (hout : ∀ o ∈ u.outputs, o.Inv) : u.advance.Inv := by
  refine ⟨?_, by rw [State.advance_init, hinit]; exact hs.2.1, hout⟩
  rw [State.shapeInv, State.advance_run, hu]
  exact ⟨hf, iff_of_false hf0 (Nat.succ_ne_zero _)⟩

theorem advance_inv_of_engine {e : EngineState} (hu : u.run = .engine e) (he : e.Inv)
    (hout : ∀ o ∈ u.outputs, o.Inv) : u.advance.Inv := by
  refine ⟨?_, by rw [State.advance_init, hinit]; exact hs.2.1, hout⟩
  rw [State.shapeInv, State.advance_run, hu]
  exact ⟨he, Nat.succ_pos _⟩

end AfterACommand

section FromTheInvariant
variable {s : State} (hs : s.Inv)
include hs

theorem engine_inv {e : EngineState} (hr : s.run = .engine e) : e.Inv := by
  have hshape := hs.1
  rw [State.shapeInv, hr] at hshape
  exact hshape.1

theorem noEngine_code_mem {f : Byte} (hr : s.run = .noEngine f) : f ∈ noEngineFaultCodes := by
  have hshape := hs.1
  rw [State.shapeInv, hr] at hshape
  exact hshape.1

/-- A faulted run moves its cursor alone. -/
theorem advance_inv_of_faulted (hf : s.run.faultCode ≠ 0) : s.advance.Inv := by
  cases hr : s.run with
  | noEngine f =>
    rw [hr] at hf
    exact advance_inv_of_noEngine rfl hs hr (noEngine_code_mem hs hr) hf hs.2.2
  | engine e => exact advance_inv_of_engine rfl hs hr (engine_inv hs hr) hs.2.2

/-- A fault with a code that both shapes of the run can hold. -/
theorem advance_inv_of_raise {c : Cause} (hc : c.code ∈ engineFaultCodes) (hc' : c.code ∈ noEngineFaultCodes) :
    (s.raise c).advance.Inv := by
  cases hr : s.run with
  | noEngine f =>
    exact advance_inv_of_noEngine (s := s) rfl hs (by rw [State.raise_run, hr]; rfl) hc' c.code_ne_zero hs.2.2
  | engine e =>
    exact advance_inv_of_engine (s := s) rfl hs (by rw [State.raise_run, hr]; rfl) ((engine_inv hs hr).withFault hc)
      hs.2.2

theorem exec_advance_inv {i : Instr} {u : State} (hu : exec i s = .next u) : u.advance.Inv := by
  obtain ⟨hf, rfl⟩ | ⟨_, _, rfl⟩ | ⟨e, hr, _, rfl⟩ | ⟨raw, _, hr, _, ⟨err, _, rfl⟩ | ⟨r, hp, rfl⟩⟩ := exec_cases hu
  · exact advance_inv_of_faulted hs hf
  · exact advance_inv_of_raise hs (by decide) (by decide)
  · have heffect := effectOf_inv i (engine_inv hs hr)
    exact advance_inv_of_engine (s.finish_init _) hs (s.finish_run _) heffect.engineAfter (heffect.outputs hs.2.2)
  · exact advance_inv_of_noEngine (s := s) rfl hs (by rw [State.raise_run, hr]; rfl) (by cases err <;> decide)
      err.cause.code_ne_zero hs.2.2
  · exact advance_inv_of_engine (s := s) rfl hs rfl (construct_inv (record_inv_of_parse hp) hs.2.1) hs.2.2

end FromTheInvariant

end Sys2Proof.Machine
end

section
/-! The claims about the whole machine: the invariant and the access matrix (10_state.md sections 1 to 5). -/

namespace Sys2Proof.Machine

open Sys2Proof.Claims

/-- Settles O49: the command of a step keeps the invariant, whether it decodes or not. -/
theorem stepKeepsTheInvariant : Obligations.StepKeepsTheInvariant := by
  intro s t hs h
  obtain ⟨c, rest, u, _, _, hu, rfl⟩ := step_cases h
  obtain ⟨i, _, he⟩ | ⟨_, _, he⟩ := runCommand_cases hu
  · exact exec_advance_inv hs he
  · obtain ⟨hf, rfl⟩ | ⟨_, rfl⟩ := execIllegal_cases he
    · exact advance_inv_of_faulted hs hf
    · exact advance_inv_of_raise hs (by decide) (by decide)

/-- Settles O50: in a faulted run nothing changes; otherwise each instruction's effect is an update of the components it
writes. -/
theorem eachComponentHasItsWriters : Obligations.EachComponentHasItsWriters := by
  intro i s t e hs h
  obtain ⟨_, rfl⟩ | ⟨hf, rfl⟩ := exec_engine_cases hs h
  · exact ⟨e, hs, by simp⟩
  · refine ⟨_, s.finish_run _, ?_⟩
    cases i with
    | addrw b =>
      rw [effectOf, EngineState.writeAddr_eq]
      simp
    | addrinc1 => simp [effectOf, EngineState.addrIncrement_eq]
    | addrinc32 => simp [effectOf, EngineState.addrIncrement_eq]
    | datar =>
      rw [effectOf_datar]
      obtain ⟨b, hd⟩ | ⟨c, hd, _⟩ := (withAddr e (nextAddr e)).dataRead_cases (addrOf e)
      · simp [hd, hf]
      · simp [hd]
    | mirror a =>
      rw [effectOf]
      split_ifs <;> simp
    | _ => simp [effectOf]

end Sys2Proof.Machine
end
